-- ==== Sys2Proof/Word.lean ====
section
/-! DEFINITION. The FXU's word, its signed reading and the word of an integer (spec/00_scope.md rules R8 and R15). -/

namespace Sys2Proof

/-- A 32-bit word: every operand, result and register of the FXU (R8, R15). -/
abbrev Word := BitVec 32

/-- One byte lane of the 32-bit bus (R56). -/
abbrev Byte := BitVec 8

/-- `s32(w)`: the two's-complement value of a word (R15). -/
abbrev s32 (w : Word) : Int := w.toInt

/-- `u32(n)`: the word congruent to the integer `n` modulo 2^32 (R15). -/
abbrev u32 (n : Int) : Word := BitVec.ofInt 32 n

end Sys2Proof
end

