-- ==== Sys2Proof/Config.lean ====
section
/-! DEFINITION. What an implementation fixes and the spec leaves open: the contents of the reciprocal table and the
base address of the window (spec/00_scope.md rules R10 and R11, spec/42_reciprocal.md rules R121 and R122). -/

namespace Sys2Proof.Config

/-- MAXF, the largest Q16.16 word, 2^31 - 1 (R19). -/
abbrev maxF : Word := 0x7FFFFFFF#32

/-- MINF, the most negative Q16.16 word (R19). -/
abbrev minF : Word := 0x80000000#32

/-- `SCALE = 2^F` with F = 16 (R9); also the upper end of the reciprocal table's domain (R10). -/
abbrev scale : Nat := 65536

/-- The contract a reciprocal table meets (R121 (a) and (b)), and the only facts a claim may use of one. Entry 0 is
left out, since it is never read (R121 (d)). The source states no error bound, so (c) adds no premise. -/
structure RtabContract (table : Nat → Word) : Prop where
  /-- R121 (a): entries never rise as the index rises, read as unsigned integers. -/
  antitone : ∀ i j, 1 ≤ i → i < j → j ≤ scale → (table j).toNat ≤ (table i).toNat
  /-- R121 (b): every entry lies in 0 .. 2^31 - 1. -/
  bounded : ∀ i, 1 ≤ i → i ≤ scale → (table i).toNat ≤ 2 ^ 31 - 1

/-- A free function of the index, about which nothing is known (log entry 9). -/
opaque rtabRaw : Nat → Word

/-- The table a raw function gives: bit 31 cleared and each entry held at or below the one before it. A raw function
that already meets the contract is left as it is on 1 .. 65536, so every table the contract allows is some
`boundedTable raw`, and every `boundedTable raw` meets the contract (log entry 9). -/
def boundedTable (raw : Nat → Word) : Nat → Word
  | 0 => raw 0
  | 1 => raw 1 &&& maxF
  | i + 2 =>
    if (raw (i + 2) &&& maxF).toNat ≤ (boundedTable raw (i + 1)).toNat then raw (i + 2) &&& maxF
    else boundedTable raw (i + 1)

/-- The contents of RTAB, a parameter of the model under the contract of R121 (R10, R32). -/
def rtab (i : Nat) : Word := boundedTable rtabRaw i

/-- The reference contents `min(floor(2^32 / i), 2^31 - 1)`, with entry 0 at 0x7FFFFFFF (R122). Used by tests and by
claims that name it, never by the machine: a claim about it says nothing of another table. -/
def rtabRef (i : Nat) : Word :=
  if i = 0 then maxF else BitVec.ofNat 32 (min (2 ^ 32 / i) (2 ^ 31 - 1))

/-- A free word, from which the window's base address is taken (log entry 10). -/
opaque fxuBaseRaw : Word

/-- `FXU_BASE`, the base address of the register window: a 32-bit address aligned to 64 bytes, otherwise unknown (R11). -/
def fxuBase : Word := fxuBaseRaw &&& 0xFFFFFFC0#32

end Sys2Proof.Config
end

