-- ==== Sys2Proof/Syntax.lean ====
section
/-! DEFINITION. The FXU's commands and the fields of a command word (spec/30_encoding.md rules R70, R71 and R73). -/

namespace Sys2Proof

/-- The five commands, one constructor per row of spec/opcode_table.json. None has an operand field: the operands are
what OPA and OPB hold when CMD is written (R70, R74). -/
inductive Instr where
  | mul
  | div
  | recip
  | adiv
  | mod
  deriving DecidableEq, Repr

/-- The two fields of a command word, as the format lays them out (R71). -/
structure CommandFields where
  /-- RSV, bits 31:3, which must be 0. -/
  rsv : BitVec 29
  /-- OP, bits 2:0, the operation select. -/
  op : BitVec 3
  deriving DecidableEq, Repr

end Sys2Proof
end

