-- ==== Sys2Proof/WellFormed.lean ====
section
/-! DEFINITION. Which command fields make a legal command (spec/30_encoding.md rules R71 and R75). -/

namespace Sys2Proof

/-- The reserved bits of a command word are all 0 (R71). -/
def CommandFields.rsvClear (f : CommandFields) : Bool := f.rsv == 0#29

/-- The operation select names one of the five commands (R71, R73). -/
def CommandFields.opDefined (f : CommandFields) : Bool := decide (f.op.toNat ≤ 4)

/-- A legal command word's fields: RSV = 0 and OP in 0 .. 4 (R71, R75). -/
def CommandFields.wf (f : CommandFields) : Bool := f.rsvClear && f.opDefined

/-- A command has no operand field, so nothing about it can be ill-formed (R70, R74); what can be is its word, which
`CommandFields.wf` checks. -/
def Instr.wf : Instr → Bool
  | .mul => true
  | .div => true
  | .recip => true
  | .adiv => true
  | .mod => true

end Sys2Proof
end

