-- ==== Sys2Proof/Decode.lean ====
section
/-! DEFINITION. The decoder of command words, total and rejecting by name, and the encoder (spec/30_encoding.md rules
R70 to R75), with the byte lanes of a word (spec/20_memory.md rule R56). -/

namespace Sys2Proof

/-- Why a word is no command (R75). The machine answers each with the IllegalCommand event; the name only says which
check failed, the reserved bits before the operation (log entry 15). -/
inductive DecodeReject where
  /-- Some bit of 31:3 is 1. -/
  | reservedBits
  /-- OP is 5, 6 or 7. -/
  | reservedOperation
  /-- A byte sequence that is not exactly one 32-bit word (R70: there is no other length). -/
  | wrongLength
  deriving DecidableEq, Repr

/-- The fields of a command word (R71). -/
def fieldsOf (w : Word) : CommandFields := ⟨w.extractLsb' 3 29, w.extractLsb' 0 3⟩

/-- The command an operation select names, once the reserved bits are known to be 0 (R73). -/
def commandOf (op : BitVec 3) : Except DecodeReject Instr :=
  match op.toNat with
  | 0 => .ok .mul
  | 1 => .ok .div
  | 2 => .ok .recip
  | 3 => .ok .adiv
  | 4 => .ok .mod
  | _ => .error .reservedOperation

/-- The command a word written to CMD stands for, or why it stands for none (R72, R73, R75). -/
def decode (w : Word) : Except DecodeReject Instr :=
  if (fieldsOf w).rsvClear then commandOf (fieldsOf w).op else .error .reservedBits

/-- Byte lane `k` of a word: bits 8k+7:8k, lane 0 at the lowest byte address (R56). -/
def byteLane (w : Word) (k : Nat) : Byte := w.extractLsb' (8 * k) 8

/-- The word whose lanes 0 to 3 are the given bytes (R56). -/
def wordOfLanes (b0 b1 b2 b3 : Byte) : Word := ((b3 ++ b2 ++ b1 ++ b0 : BitVec (8 + 8 + 8 + 8)) : BitVec 32)

/-- Decoding of a byte sequence, lowest address first: exactly one word, or no command (R56, R70). -/
def decodeBytes : List Byte → Except DecodeReject Instr
  | [b0, b1, b2, b3] => decode (wordOfLanes b0 b1 b2 b3)
  | _ => .error .wrongLength

/-- The word whose `nbits` low bits are those of `w`, every bit above them 0: how the opcode table numbers a row's bits. -/
def tableWord (nbits w : Nat) : Word := BitVec.ofNat 32 (w % 2 ^ nbits)

/-- The command the decoder reads from an opcode-table row's bits; `none` where it refuses them. A row longer than the
one format there is has no instruction (R70). -/
def decodeTableWord (nbits w : Nat) : Option Instr :=
  if 2 ^ 32 ≤ w % 2 ^ nbits then none
  else
    match decode (tableWord nbits w) with
    | .ok i => some i
    | .error _ => none

/-- The OP field of a command (R73). -/
def opcode : Instr → BitVec 3
  | .mul => 0b000#3
  | .div => 0b001#3
  | .recip => 0b010#3
  | .adiv => 0b011#3
  | .mod => 0b100#3

/-- The command word of a command: RSV = 0 above its OP field (R71, R73). -/
def encode (i : Instr) : Word := ((0#29 ++ opcode i : BitVec (29 + 3)) : BitVec 32)

/-- The four bytes of a command word, lowest address first (R56). -/
def encodeBytes (i : Instr) : List Byte :=
  [byteLane (encode i) 0, byteLane (encode i) 1, byteLane (encode i) 2, byteLane (encode i) 3]

end Sys2Proof
end

