-- ==== Sys2Proof/Machine/State.lean ====
section
/-! DEFINITION. The FXU's state as plain data, its value right after reset, what arrives at its port and what it
answers, its events, and the reasons a step can stop (spec/10_state.md, spec/20_memory.md, spec/60_exceptions.md,
spec/70_reset_and_hazards.md rule R190). -/

namespace Sys2Proof.Machine

/-- The registers of the window by name (R21); every offset that names none of them is reserved. -/
inductive Reg where
  | opa | opb | cmd | result | status | ctrl | info
  | reserved
  deriving DecidableEq, Repr

/-- What a bus access asks for. A fetch is told apart only so that the model can refuse it (R65). -/
inductive AccessKind where
  | read
  /-- A write, with its 32 bits of write data. -/
  | write (v : Word)
  | fetch
  deriving DecidableEq, Repr

/-- One host access as it arrives at the port: what it asks for, its byte offset from FXU_BASE, and its size in bytes
(R18, R50, R53). -/
structure Access where
  kind : AccessKind
  off  : Nat
  size : Nat
  deriving DecidableEq, Repr

/-- What the outside world does to the machine, one item at a time (log entries 1 and 8). -/
inductive Input where
  | access (a : Access)
  /-- The reset line goes to the given level, `true` for asserted (R190). -/
  | resetLine (asserted : Bool)
  deriving DecidableEq, Repr

/-- The bus's answer to an access. -/
inductive Response where
  /-- An accepted read's data (R57). -/
  | data (v : Word)
  /-- The ordinary response to an accepted write (R35, R196). -/
  | written
  /-- The error response, which carries no data (R55). -/
  | busError
  deriving DecidableEq, Repr

/-- The events a command can raise (R160, R165). A command that raises none is `none` of `Option Event`. -/
inductive Event where
  | saturated
  | domainError
  | illegalCommand
  | mulOverflow
  deriving DecidableEq, Repr

/-- One entry of the reciprocal table given as data: its index and its word. -/
abbrev RtabEntry := Nat × Word

/-- The FXU. Plain data: two states can be compared and a state can be written out. -/
structure State where
  /-- OPA, operand a (R22). -/
  opa : Word
  /-- OPB, operand b (R23). -/
  opb : Word
  /-- CMD, the last word written to it, legal or not (R24). -/
  cmd : Word
  /-- RESULT, the result of the last command that wrote one (R25). -/
  result : Word
  /-- STATUS: per-command bits 3:0, sticky bits 11:8, the rest reserved (R26, R27). -/
  status : Word
  /-- CTRL: interrupt enables in bits 3:0, the rest reserved (R28). -/
  ctrl : Word
  /-- RTAB's entries that are given as data; every other entry holds the parameter `Config.rtab` (R32, log entry 9). -/
  rtab : List RtabEntry
  /-- The reset input is asserted (R190). -/
  inReset : Bool
  /-- What has arrived at the port and is not yet performed, oldest first (R61, R77, log entry 1). -/
  inputs : List Input
  /-- The bus response to the last access performed (log entry 3). -/
  response : Option Response
  deriving DecidableEq, Repr

/-- Why the machine stops. -/
inductive Fault where
  /-- Raised by a step whose access lies outside the 64-byte window, where the FXU decodes nothing (R50). Safe: the
  model stops where only the platform could say what happens (log entry 5). -/
  | outsideWindow
  deriving DecidableEq, Repr

/-- Why the model gives no meaning. -/
inductive Refusal where
  /-- A command without a meaning; no arm of `exec` raises it in this model. Safe. -/
  | notModelled (mnemonic : String)
  /-- Raised by a step whose access is an instruction fetch: "a model refuses a fetch from it" (R65). Safe (log entry 6). -/
  | fetchFromWindow
  /-- Raised by a step whose access arrives while reset is asserted, which the FXU does not accept (R190). Safe (log entry 7). -/
  | accessDuringReset
  deriving DecidableEq, Repr

/-- The machine right after reset is released: every register 0, irq 0, no command performed (R33, R190, R191). RTAB is
the parameter, nothing has arrived at the port and nothing has been answered (log entries 2, 3 and 9). -/
def State.reset : State where
  opa := 0x00000000#32
  opb := 0x00000000#32
  cmd := 0x00000000#32
  result := 0x00000000#32
  status := 0x00000000#32
  ctrl := 0x00000000#32
  rtab := []
  inReset := false
  inputs := []
  response := none

end Sys2Proof.Machine
end

