-- ==== Sys2Proof/Machine/Operands.lean ====
section
/-! DEFINITION. The operands of a command, the integer operators of the operation rules, and which accesses the window
accepts (spec/00_scope.md rules R16 and R17, spec/30_encoding.md rule R74, spec/20_memory.md rules R50 and R53,
spec/10_state.md rule R21). -/

namespace Sys2Proof.Machine

/-- Operand a: the word in OPA when CMD is written (R74). -/
def operandA (s : State) : Word := s.opa

/-- Operand b: the word in OPB when CMD is written (R74). -/
def operandB (s : State) : Word := s.opb

/-- `n >>a k`, floor(n / 2^k) (R16). `Int`'s `/` by a positive divisor rounds toward minus infinity (log entry 14). -/
def asr (n : Int) (k : Nat) : Int := n / 2 ^ k

/-- `n >>u k` of a non-negative integer, floor(n / 2^k) (R16). -/
def lsr (n k : Nat) : Nat := n / 2 ^ k

/-- `tdiv(n, d)`: the quotient rounded toward zero (R16). -/
def tdiv (n d : Int) : Int := Int.tdiv n d

/-- `trem(n, d) = n - d * tdiv(n, d)`: the remainder whose sign is that of `n` (R16). -/
def trem (n d : Int) : Int := n - d * tdiv n d

/-- `mag(w)`: the exact magnitude of a word, 2^31 for 0x80000000 (R17). -/
def mag (w : Word) : Nat := (s32 w).natAbs

/-- `sign(w)`: bit 31 of a word, so the sign of zero is 0 (R112). -/
def signBit (w : Word) : Bool := w.getLsbD 31

/-- The register an offset in the window selects (R21). Offsets 0x1C to 0x3C are reserved. -/
def regAt (off : Nat) : Reg :=
  match off with
  | 0x00 => .opa
  | 0x04 => .opb
  | 0x08 => .cmd
  | 0x0C => .result
  | 0x10 => .status
  | 0x14 => .ctrl
  | 0x18 => .info
  | _ => .reserved

/-- The window is 64 bytes; the FXU decodes nothing outside it (R50). -/
def Access.inWindow (a : Access) : Bool := decide (a.off < 64)

/-- An access is accepted when it is one aligned 32-bit word inside the window (R53). -/
def Access.accepted (a : Access) : Bool :=
  decide (a.size = 4) && decide (a.off % 4 = 0) && decide (a.off ≤ 0x3C)

/-- The access at a host address: its offset is the address less FXU_BASE (R18, R50). An address outside the window has
an offset of 64 or more. -/
def accessAtAddress (kind : AccessKind) (addr : Word) (size : Nat) : Access :=
  ⟨kind, (addr - Config.fxuBase).toNat, size⟩

end Sys2Proof.Machine
end

