-- ==== Sys2Proof/Machine/Flags.lean ====
section
/-! DEFINITION. Every computation on STATUS and CTRL: clearing and recording events, write-one-to-clear, what a read
shows, what a CTRL write stores, and the interrupt output (spec/10_state.md rules R26 to R28 and R31,
spec/60_exceptions.md rules R165 and R166). -/

namespace Sys2Proof.Machine

/-- The code of an event: the index of its per-command bit, of its sticky bit and of its enable (R165). -/
def Event.code : Event → Nat
  | .saturated => 0
  | .domainError => 1
  | .illegalCommand => 2
  | .mulOverflow => 3

/-- `STATUS[3:0] <- 0`, the start of every command (R72). -/
def clearEventBits (status : Word) : Word := status &&& 0xFFFFFFF0#32

/-- `STATUS[i] <- 1 ; STATUS[8+i] <- 1` for the event of code i (R166). -/
def recordEvent (e : Event) (status : Word) : Word :=
  status ||| (1#32 <<< e.code) ||| (1#32 <<< (8 + e.code))

/-- `STATUS[11:8] <- STATUS[11:8] & ~v[11:8]`: the effect of writing `v` to STATUS (R27, R58). -/
def clearSticky (v status : Word) : Word := status &&& ~~~(v &&& 0x00000F00#32)

/-- What a read of STATUS returns: bits 7:4 and 31:12 read 0 (R26, R57). -/
def visibleStatus (status : Word) : Word := status &&& 0x00000F0F#32

/-- `CTRL[3:0] <- v[3:0]`: the effect of writing `v` to CTRL (R28, R58). -/
def writeEnables (v ctrl : Word) : Word := (ctrl &&& 0xFFFFFFF0#32) ||| (v &&& 0x0000000F#32)

/-- What a read of CTRL returns: bits 31:4 read 0 (R28, R57). -/
def visibleCtrl (ctrl : Word) : Word := ctrl &&& 0x0000000F#32

/-- The level of irq: some sticky bit is 1 whose enable is 1 (R31). -/
def irqLevel (status ctrl : Word) : Bool :=
  (status.getLsbD 8 && ctrl.getLsbD 0) || (status.getLsbD 9 && ctrl.getLsbD 1)
    || (status.getLsbD 10 && ctrl.getLsbD 2) || (status.getLsbD 11 && ctrl.getLsbD 3)

/-- The interrupt output, a function of the registers only (R31, log entry 11). -/
def State.irq (s : State) : Bool := irqLevel s.status s.ctrl

/-- The per-command bits STATUS[3:0] (R26). -/
def State.eventBits (s : State) : BitVec 4 := s.status.extractLsb' 0 4

/-- The sticky bits STATUS[11:8] (R27). -/
def State.stickyBits (s : State) : BitVec 4 := s.status.extractLsb' 8 4

end Sys2Proof.Machine
end

