-- ==== Sys2Proof/Machine/Ops.lean ====
section
/-! DEFINITION. The named operations over the state: one setter per register, the read of the reciprocal table, raising
an event, writing a command's result back, and reset (spec/30_encoding.md rule R72, spec/60_exceptions.md rules R163 and
R166, spec/70_reset_and_hazards.md rule R190). -/

namespace Sys2Proof.Machine

def State.setOpa (s : State) (v : Word) : State := { s with opa := v }
def State.setOpb (s : State) (v : Word) : State := { s with opb := v }
def State.setCmd (s : State) (v : Word) : State := { s with cmd := v }
def State.setResult (s : State) (v : Word) : State := { s with result := v }
def State.setStatus (s : State) (v : Word) : State := { s with status := v }
def State.setCtrl (s : State) (v : Word) : State := { s with ctrl := v }
/-- The bus answers the access being performed (R196). -/
def State.respond (s : State) (r : Response) : State := { s with response := some r }
/-- What remains to be performed after the oldest input is taken (R61). -/
def State.setInputs (s : State) (l : List Input) : State := { s with inputs := l }

/-- `RTAB[i]`: the entry given as data, or the parameter's (R18, R32, log entry 9). -/
def rtabAt (s : State) (i : Nat) : Word :=
  match s.rtab.find? (fun e => e.1 == i) with
  | some e => e.2
  | none => Config.rtab i

/-- Whether every listed entry of RTAB has an index of the table, each once, in rising order (R10). -/
def rtabListed : List RtabEntry → Bool
  | [] => true
  | [e] => decide (e.1 ≤ Config.scale)
  | e :: e' :: l => decide (e.1 < e'.1) && rtabListed (e' :: l)

/-- The start of every command: the per-command bits are cleared (R72). -/
def clearEvents (s : State) : State := s.setStatus (clearEventBits s.status)

/-- `raise E`: the one operation that records an event. The FXU takes no trap, so it sets the event's per-command and
sticky bits and nothing else; irq follows from STATUS and CTRL (R166, R170). -/
def raise (e : Event) (s : State) : State := s.setStatus (recordEvent e s.status)

/-- `if e != NONE: raise e` (R72). -/
def raiseIfAny (e : Option Event) (s : State) : State :=
  match e with
  | none => s
  | some e => raise e s

/-- A legal command's effect once its result word and event are known: STATUS[3:0] cleared, RESULT written, the event
recorded (R72). -/
def completeCommand (out : Word × Option Event) (s : State) : Host.Outcome State Fault Refusal :=
  .next (raiseIfAny out.2 ((clearEvents s).setResult out.1))

/-- An illegal word's effect: STATUS[3:0] cleared and IllegalCommand recorded; RESULT is kept and no operation is
performed (R72, R163). -/
def illegalCommand (s : State) : Host.Outcome State Fault Refusal := .next (raise .illegalCommand (clearEvents s))

/-- Every register at its reset value, with RTAB, the reset line and what still waits at the port kept (R33, R190, R192). -/
def resetRegisters (s : State) : State :=
  { State.reset with rtab := s.rtab, inReset := s.inReset, inputs := s.inputs }

end Sys2Proof.Machine
end

