-- ==== Sys2Proof/Machine/Multiply.lean ====
section
/-! DEFINITION. MUL, exact multiply (spec/40_multiply.md rules R100 to R105). -/

namespace Sys2Proof.Machine

/-- The exact product scaled down, floor(a * b / 2^16), before it is narrowed to a word (R101). -/
def mulQuotient (a b : Word) : Int := asr (s32 a * s32 b) 16

/-- An integer does not fit a signed 32-bit word (R101, R102). -/
def outOfRange (q : Int) : Bool := decide (q < -2 ^ 31) || decide (2 ^ 31 - 1 < q)

/-- MULf: the low 32 bits of the scaled product, MulOverflow when it does not fit (R101, R102). It never saturates. -/
def mulF (a b : Word) : Word × Option Event :=
  (u32 (mulQuotient a b), if outOfRange (mulQuotient a b) then some .mulOverflow else none)

/-- MUL (R100). -/
def execMul (s : State) : Host.Outcome State Fault Refusal :=
  completeCommand (mulF (operandA s) (operandB s)) s

end Sys2Proof.Machine
end

