-- ==== Sys2Proof/Machine/Reciprocal.lean ====
section
/-! DEFINITION. RECIP, reciprocal by range reduction and table lookup (spec/42_reciprocal.md rules R120 to R130). -/

namespace Sys2Proof.Machine

/-- SMAX, the greatest number of halvings range reduction takes (R13). -/
def maxHalvings : Nat := 15

/-- Step 2 of RECIPf, at most `fuel` turns of it: while m > 65536, halve m and count (R123, R124). Answers (m, s). -/
def reduceLoop : Nat → Nat → Nat → Nat × Nat
  | 0, m, s => (m, s)
  | fuel + 1, m, s => if Config.scale < m then reduceLoop fuel (lsr m 1) (s + 1) else (m, s)

/-- Range reduction of a magnitude (R124). SMAX turns are enough for every magnitude up to 2^31 (R13). -/
def rangeReduce (m0 : Nat) : Nat × Nat := reduceLoop maxHalvings m0 0

/-- Step 5: the sign of the argument restored to the shifted table entry (R127). -/
def restoreSign (v t : Word) : Word := if signBit v then -t else t

/-- RECIPf over a table: a domain error at zero, otherwise reduce, look up, shift right and restore the sign (R123, R128). -/
def recipF (table : Nat → Word) (v : Word) : Word × Option Event :=
  if v = 0x00000000#32 then (0x00000000#32, some .domainError)
  else
    let (m, s) := rangeReduce (mag v)
    (restoreSign v (table m >>> s), none)

/-- RECIP: the argument is OPB, and OPA is not read (R120). -/
def execRecip (s : State) : Host.Outcome State Fault Refusal :=
  completeCommand (recipF (rtabAt s) (operandB s)) s

end Sys2Proof.Machine
end

