-- ==== Sys2Proof/Machine/ApproxDivide.lean ====
section
/-! DEFINITION. ADIV, approximate divide: a multiply by the reciprocal (spec/43_approx_divide.md rules R140 to R145). -/

namespace Sys2Proof.Machine

/-- ADIVf over a table: the reciprocal's domain error, otherwise MULf of a and the reciprocal of b (R141, R142, R143). -/
def adivF (table : Nat → Word) (a b : Word) : Word × Option Event :=
  match recipF table b with
  | (_, some .domainError) => (0x00000000#32, some .domainError)
  | (t, _) => mulF a t

/-- ADIV (R140). The reciprocal in between is written to no register. -/
def execAdiv (s : State) : Host.Outcome State Fault Refusal :=
  completeCommand (adivF (rtabAt s) (operandA s) (operandB s)) s

end Sys2Proof.Machine
end

