-- ==== Sys2Proof/Machine/Divide.lean ====
section
/-! DEFINITION. DIV, exact divide with saturation (spec/41_divide.md rules R110 to R119). -/

namespace Sys2Proof.Machine

/-- The overflow guard, with the shift G = 14 (R12, R112). It holds for every zero divisor. -/
def divGuard (a b : Word) : Bool := decide (mag b ≤ lsr (mag a) 14)

/-- The saturated result: MINF when the signs differ, MAXF when they agree (R112). -/
def saturatedQuotient (a b : Word) : Word := if signBit (a ^^^ b) then Config.minF else Config.maxF

/-- DIVf: saturation under the guard, otherwise the quotient rounded toward zero (R111). -/
def divF (a b : Word) : Word × Option Event :=
  if divGuard a b then (saturatedQuotient a b, some .saturated)
  else (u32 (tdiv (s32 a * 2 ^ 16) (s32 b)), none)

/-- DIV (R110). -/
def execDiv (s : State) : Host.Outcome State Fault Refusal :=
  completeCommand (divF (operandA s) (operandB s)) s

end Sys2Proof.Machine
end

