-- ==== Sys2Proof/Machine/Modulo.lean ====
section
/-! DEFINITION. MOD, non-negative modulo with a power-of-two fast path (spec/44_modulo.md rules R150 to R157). -/

namespace Sys2Proof.Machine

/-- `u32(s32(b) - 1)`, the mask of the fast path (R151). -/
def modMask (b : Word) : Word := u32 (s32 b - 1)

/-- The fast path's test: b, read as unsigned, is a power of two (or 0, which is decided before) (R151, R152). -/
def fastPath (b : Word) : Bool := (b &&& modMask b) == 0x00000000#32

/-- The general path: the truncated remainder, moved into [0, mag(b)) (R151, R155). -/
def generalMod (a b : Word) : Word :=
  let r := trem (s32 a) (s32 b)
  u32 (if r < 0 then r + mag b else r)

/-- MODf: the zero modulus is checked first, then the zero dividend, then the fast path (R151, R153, R154). -/
def modF (a b : Word) : Word × Option Event :=
  if b = 0x00000000#32 then (0x00000000#32, some .domainError)
  else if a = 0x00000000#32 then (0x00000000#32, none)
  else if fastPath b then (a &&& modMask b, none)
  else (generalMod a b, none)

/-- MOD (R150). -/
def execMod (s : State) : Host.Outcome State Fault Refusal :=
  completeCommand (modF (operandA s) (operandB s)) s

end Sys2Proof.Machine
end

