-- ==== Sys2Proof/Machine/Dispatch.lean ====
section
/-! DEFINITION. One arm per command: the case split of Execute (spec/30_encoding.md rule R72). -/

namespace Sys2Proof.Machine

-- Execute of a legal word, on a state whose CMD already holds that word.
def exec (i : Instr) (s : State) : Host.Outcome State Fault Refusal :=
  match i with
  | .mul => Sys2Proof.Machine.execMul s
  | .div => Sys2Proof.Machine.execDiv s
  | .recip => Sys2Proof.Machine.execRecip s
  | .adiv => Sys2Proof.Machine.execAdiv s
  | .mod => Sys2Proof.Machine.execMod s

end Sys2Proof.Machine
end

