-- ==== Sys2Proof/Machine/Bus.lean ====
section
/-! DEFINITION. What the port does with an access and with the reset line: reads, writes, Execute, BusError and reset
(spec/20_memory.md rules R50 to R65, spec/30_encoding.md rule R72, spec/70_reset_and_hazards.md rules R190 to R196). -/

namespace Sys2Proof.Machine

/-- INFO, a constant: F = 16, W = 32, revision 1 (R29). -/
def infoWord : Word := 0x00012010#32

/-- BusRead: the data of an accepted read; it changes no state (R57). -/
def busRead (off : Nat) (s : State) : Word :=
  match regAt off with
  | .opa => s.opa
  | .opb => s.opb
  | .cmd => s.cmd
  | .result => s.result
  | .status => visibleStatus s.status
  | .ctrl => visibleCtrl s.ctrl
  | .info => infoWord
  | .reserved => 0x00000000#32

/-- Execute(c) of the word just stored in CMD: a command, or the IllegalCommand event (R72, R75). -/
def execute (c : Word) (s : State) : Host.Outcome State Fault Refusal :=
  match decode c with
  | .ok i => exec i s
  | .error _ => illegalCommand s

/-- BusWrite: the effect of an accepted write. A CMD write stores the word and performs it, as one transition; writes to
RESULT, INFO and reserved offsets do nothing (R35, R58, R196). -/
def busWrite (off : Nat) (v : Word) (s : State) : Host.Outcome State Fault Refusal :=
  match regAt off with
  | .opa => .next (s.setOpa v)
  | .opb => .next (s.setOpb v)
  | .cmd => execute v (s.setCmd v)
  | .result => .next s
  | .status => .next (s.setStatus (clearSticky v s.status))
  | .ctrl => .next (s.setCtrl (writeEnables v s.ctrl))
  | .info => .next s
  | .reserved => .next s

/-- An access that has reached an FXU that is not in reset. One the window does not accept is answered with BusError and
changes no register (R54, R55, log entry 4); a fetch is refused whatever its size (R65). -/
def performAccess (a : Access) (s : State) : Host.Outcome State Fault Refusal :=
  match a.kind with
  | .fetch => .refused .fetchFromWindow
  | .read => if a.accepted then .next (s.respond (.data (busRead a.off s))) else .next (s.respond .busError)
  | .write v => if a.accepted then busWrite a.off v (s.respond .written) else .next (s.respond .busError)

/-- The reset line goes to a level. The registers take their reset values when it is asserted and again when it is
released; a level it already has changes nothing (R190, R192, log entry 8). -/
def driveReset (asserted : Bool) (s : State) : State :=
  if asserted = s.inReset then s else { resetRegisters s with inReset := asserted }

/-- The oldest input at the port, already taken from the list. Outside the window nothing is decoded (R50), and while
reset is asserted no access is accepted (R190). -/
def performInput (i : Input) (s : State) : Host.Outcome State Fault Refusal :=
  match i with
  | .resetLine asserted => .next (driveReset asserted s)
  | .access a =>
    if a.inWindow then
      if s.inReset then .refused .accessDuringReset else performAccess a s
    else .fault .outsideWindow

/-- One transition: the oldest input, whole, in order of arrival (R59, R61); with none, the FXU holds its state (R7, R179). -/
def performNext (s : State) : Host.Outcome State Fault Refusal :=
  match s.inputs with
  | [] => .next s
  | i :: rest => performInput i (s.setInputs rest)

/-- The host's write of a word to CMD, as it arrives at the port (R24, R77). -/
def commandWrite (c : Word) : Input := .access ⟨.write c, 0x08, 4⟩

/-- A state whose very next transition performs the command of an opcode-table row: the CMD write stands first at the
port and reset is not asserted (log entry 2). -/
def placeCommand (s : State) (nbits w : Nat) : State :=
  { s with inReset := false, inputs := commandWrite (tableWord nbits w) :: s.inputs }

end Sys2Proof.Machine
end

