-- ==== Sys2Proof/Machine/Step.lean ====
section
/-! DEFINITION. One step of the FXU: the oldest input at its port, performed whole (spec/20_memory.md rules R59 and R61). -/

namespace Sys2Proof.Machine

/-- One step. The FXU fetches nothing: a step is one bus access, and a command is the write of its word to CMD (R34, R72). -/
def step (s : State) : Host.Outcome State Fault Refusal := performNext s

/-- The state whose very next step performs the command with these opcode-table bits (log entry 2). -/
def State.withFetchWord (s : State) (nbits w : Nat) : State := placeCommand s nbits w

end Sys2Proof.Machine
end

