-- ==== Sys2Proof/Machine/Transactions.lean ====
section
/-! DEFINITION. The notation of FXU programs: transactions, pseudo-instructions and Q16.16 literals, as what they put at
the port (spec/30_encoding.md rules R77 to R79). Host branches are the host's (R80). -/

namespace Sys2Proof.Machine

/-- One line of a program: a write or a read of a window offset (R77). -/
inductive Transaction where
  | wr (off : Nat) (v : Word)
  | rd (off : Nat)
  deriving DecidableEq, Repr

/-- The offset a register's name stands for in WR and RD (R77); 0x1C, the first reserved offset, for `reserved`, which
has no name there. -/
def Reg.offset : Reg → Nat
  | .opa => 0x00
  | .opb => 0x04
  | .cmd => 0x08
  | .result => 0x0C
  | .status => 0x10
  | .ctrl => 0x14
  | .info => 0x18
  | .reserved => 0x1C

/-- The access a transaction puts at the port: BusWrite(off, v) or BusRead(off) (R77). -/
def Transaction.toInput : Transaction → Input
  | .wr off v => .access ⟨.write v, off, 4⟩
  | .rd off => .access ⟨.read, off, 4⟩

/-- The pseudo-instructions (R78). -/
inductive Pseudo where
  | fxMul (a b : Word)
  | fxDiv (a b : Word)
  | fxRecip (b : Word)
  | fxAdiv (a b : Word)
  | fxMod (a b : Word)
  | fxChk
  | fxClr
  deriving DecidableEq, Repr

/-- `WR OPA, a ; WR OPB, b ; WR CMD, <command> ; RD RESULT`. -/
def twoOperandSequence (i : Instr) (a b : Word) : List Transaction :=
  [.wr (Reg.offset .opa) a, .wr (Reg.offset .opb) b, .wr (Reg.offset .cmd) (encode i), .rd (Reg.offset .result)]

/-- The expansion of a pseudo-instruction, exactly (R78). -/
def Pseudo.expand : Pseudo → List Transaction
  | .fxMul a b => twoOperandSequence .mul a b
  | .fxDiv a b => twoOperandSequence .div a b
  | .fxRecip b => [.wr (Reg.offset .opb) b, .wr (Reg.offset .cmd) (encode .recip), .rd (Reg.offset .result)]
  | .fxAdiv a b => twoOperandSequence .adiv a b
  | .fxMod a b => twoOperandSequence .mod a b
  | .fxChk => [.rd (Reg.offset .status)]
  | .fxClr => [.wr (Reg.offset .status) 0x00000F00#32]

/-- The Q16.16 literal of the decimal number `digits / 10^places`: a word when `d * 65536` is an integer in range, an
assembler error (`none`) otherwise, never a rounded value (R79). -/
def qLiteral (digits : Int) (places : Nat) : Option Word :=
  let scaled := digits * 65536
  if scaled % (10 ^ places : Nat) = 0 then
    let n := scaled / (10 ^ places : Nat)
    if -2 ^ 31 ≤ n ∧ n ≤ 2 ^ 31 - 1 then some (u32 n) else none
  else none

end Sys2Proof.Machine
end

