-- ==== Sys2Proof/Safety.lean ====
section
/-! DEFINITION. What counts as a good state and a safe step, in the terms the claims use. -/

namespace Sys2Proof.Machine

/-- What STATUS, CMD and RESULT say of one another in every state a run can reach. -/
structure Consistent (s : State) : Prop where
  /-- Bits 7:4 and 31:12 of STATUS hold 0 (R26). -/
  statusReserved : s.status &&& 0xFFFFF0F0#32 = 0x00000000#32
  /-- Bits 31:4 of CTRL hold 0 (R28). -/
  ctrlReserved : s.ctrl &&& 0xFFFFFFF0#32 = 0x00000000#32
  /-- At most one of STATUS bits 3:0 is 1 (R167). -/
  oneEvent : s.eventBits = 0b0000#4 ∨ s.eventBits = 0b0001#4 ∨ s.eventBits = 0b0010#4 ∨ s.eventBits = 0b0100#4
    ∨ s.eventBits = 0b1000#4
  /-- ILL is 1 exactly when CMD holds a word other than 0 to 4 (R163). -/
  illegal : s.status.getLsbD 2 = true ↔ 4 < s.cmd.toNat
  /-- SAT is left by DIV alone, with a saturated RESULT (R161). -/
  saturated : s.status.getLsbD 0 = true → s.cmd = 0x00000001#32 ∧ (s.result = Config.maxF ∨ s.result = Config.minF)
  /-- DOM is left by RECIP, ADIV and MOD alone, with RESULT 0 (R162). -/
  domain : s.status.getLsbD 1 = true →
    (s.cmd = 0x00000002#32 ∨ s.cmd = 0x00000003#32 ∨ s.cmd = 0x00000004#32) ∧ s.result = 0x00000000#32
  /-- OVF is left by MUL and ADIV alone (R164). -/
  overflow : s.status.getLsbD 3 = true → s.cmd = 0x00000000#32 ∨ s.cmd = 0x00000003#32
  /-- After MOD, bit 31 of RESULT is 0 (R157). -/
  residue : s.cmd = 0x00000004#32 → s.result.getLsbD 31 = false

/-- RTAB, as this state reads it, meets its contract (R121). -/
def RtabGood (s : State) : Prop := Config.RtabContract (rtabAt s)

/-- The host's run goes on: its last access was not answered with BusError, which is a fault of the host's run (R55,
spec/93_implementation_defined.md S4 and S5). -/
def HostRunGoesOn (s : State) : Prop := s.response ≠ some .busError

end Sys2Proof.Machine
end

