-- ==== Sys2Proof/Certificates/Slice0/Obligations.lean ====
section
/-! DEFINITION. The statements for the provers, by file of the spec. A record update `{ s with … }` in a conclusion is
the whole next state, so it says what changes and that nothing else does (the FXU has no memory). STATUS values 0x101,
0x202, 0x404 and 0x808 are the per-command and the sticky bit of Saturated, DomainError, IllegalCommand and MulOverflow. -/

open Sys2Proof Sys2Proof.Machine

/-! ### Encoding and Execute (spec/30_encoding.md) -/

/-- The opcode map, word by word, with the words next to it that are no command (R73, R75). That those are rejected is the
spec's; the two names they are rejected by are the model's choice (log entry 15). -/
def Obligations.OpcodeMapDecodes : Prop :=
  decode 0x00000000#32 = .ok .mul ∧ decode 0x00000001#32 = .ok .div ∧ decode 0x00000002#32 = .ok .recip ∧
  decode 0x00000003#32 = .ok .adiv ∧ decode 0x00000004#32 = .ok .mod ∧
  decode 0x00000005#32 = .error .reservedOperation ∧ decode 0x00000006#32 = .error .reservedOperation ∧
  decode 0x00000007#32 = .error .reservedOperation ∧ decode 0x00000008#32 = .error .reservedBits ∧
  decode 0x80000001#32 = .error .reservedBits

/-- Each command has exactly one word, and every word above 4 is none (R71, R73, R75). -/
def Obligations.CommandWordsOneToOne : Prop :=
  (∀ (w : Word) (i : Instr), decode w = .ok i ↔ w = encode i) ∧
  (∀ w : Word, (∃ r, decode w = .error r) ↔ 4 < w.toNat)

/-- A write of a command's word to CMD is one step: the word is stored in CMD, the write is answered, and the decoded
command runs on the state so prepared (R58, R72). -/
def Obligations.StepRunsDecodedCommand : Prop :=
  ∀ (s : State) (w : Word) (i : Instr) (rest : List Input), s.inReset = false →
    s.inputs = .access ⟨.write w, 0x08, 4⟩ :: rest → decode w = .ok i →
    step s = exec i { s with cmd := w, inputs := rest, response := some .written }

/-- Any other word written to CMD records IllegalCommand and keeps RESULT, OPA and OPB (R163). -/
def Obligations.IllegalWordRecordsIllegalCommand : Prop :=
  ∀ (s : State) (w : Word) (rest : List Input), s.inReset = false →
    s.inputs = .access ⟨.write w, 0x08, 4⟩ :: rest → 4 < w.toNat →
    step s = .next { s with cmd := w, status := (s.status &&& 0xFFFFFFF0#32) ||| 0x00000404#32, inputs := rest,
                            response := some .written }

/-- What a command leaves unchanged: every register but RESULT and STATUS, and in STATUS the reserved bits; the sticky
bits gain exactly the per-command bits the command set (R27, R37). -/
def Obligations.CommandFrame : Prop :=
  ∀ (i : Instr) (s t : State), exec i s = .next t →
    t.opa = s.opa ∧ t.opb = s.opb ∧ t.cmd = s.cmd ∧ t.ctrl = s.ctrl ∧ t.rtab = s.rtab ∧ t.inReset = s.inReset ∧
    t.inputs = s.inputs ∧ t.response = s.response ∧
    (∀ j, (4 ≤ j ∧ j < 8) ∨ 12 ≤ j → t.status.getLsbD j = s.status.getLsbD j) ∧
    t.stickyBits = s.stickyBits ||| t.eventBits

/-- A command's RESULT and event are a function of OPA, OPB and RTAB entries 1 to 65536 alone (R200, R125, R169). -/
def Obligations.OutcomeDependsOnOperandsAlone : Prop :=
  ∀ (i : Instr) (s s' t t' : State), s'.opa = s.opa → s'.opb = s.opb →
    (∀ j, 1 ≤ j → j ≤ 65536 → rtabAt s' j = rtabAt s j) → exec i s = .next t → exec i s' = .next t' →
    t'.result = t.result ∧ t'.eventBits = t.eventBits

/-- Which events each command can leave; at most one of STATUS bits 3:0 is 1 (R165, R167). -/
def Obligations.EventsOfEachCommand : Prop :=
  ∀ (i : Instr) (s t : State), exec i s = .next t →
    match i with
    | .mul => t.eventBits = 0b0000#4 ∨ t.eventBits = 0b1000#4
    | .div => t.eventBits = 0b0000#4 ∨ t.eventBits = 0b0001#4
    | .recip => t.eventBits = 0b0000#4 ∨ t.eventBits = 0b0010#4
    | .adiv => t.eventBits = 0b0000#4 ∨ t.eventBits = 0b0010#4 ∨ t.eventBits = 0b1000#4
    | .mod => t.eventBits = 0b0000#4 ∨ t.eventBits = 0b0010#4

/-! ### MUL (spec/40_multiply.md) -/

/-- MUL, for every pair of operands: the floor of the scaled product, its low 32 bits, OVF when it does not fit (R101, R102).
The floor of a negative product rests on R16's passage from general knowledge (log entry 14, PRESUMED). -/
def Obligations.MulWritesFloorProduct : Prop :=
  ∀ s : State,
    let q : Int := Int.fdiv (s.opa.toInt * s.opb.toInt) 65536
    exec .mul s = .next { s with
      result := BitVec.ofInt 32 q
      status := (s.status &&& 0xFFFFFFF0#32) ||| (if q < -2 ^ 31 ∨ q > 2 ^ 31 - 1 then 0x00000808#32 else 0x00000000#32) }

/-- A 64-bit two's-complement datapath computes MUL: multiply the sign-extended operands modulo 2^64, shift right
arithmetically by 16, keep the low 32 bits; OVF says that the rest is not their sign extension (R101, R104).
That both shifts round a negative product down rests on log entry 14 (PRESUMED). -/
def Obligations.MulMatchesWideDatapath : Prop :=
  ∀ s : State,
    let p : BitVec 64 := (s.opa.signExtend 64 * s.opb.signExtend 64).sshiftRight 16
    ∃ t, exec .mul s = .next t ∧ t.result = p.setWidth 32 ∧
      (t.status.getLsbD 3 = true ↔ (p.setWidth 32).signExtend 64 ≠ p)

/-- The product fits 64 bits with room, and the scaled product 47 (R104). -/
def Obligations.MulIntermediateFits : Prop :=
  ∀ a b : Word,
    (s32 a * s32 b).natAbs ≤ 2 ^ 62 ∧ (BitVec.ofInt 64 (s32 a * s32 b)).toInt = s32 a * s32 b ∧
    -2 ^ 62 + 2 ^ 31 ≤ s32 a * s32 b ∧ s32 a * s32 b ≤ 2 ^ 62 ∧
    -2 ^ 46 + 2 ^ 15 ≤ mulQuotient a b ∧ mulQuotient a b ≤ 2 ^ 46

/-- Without overflow the result is the product rounded toward minus infinity (R103). That direction is R16's passage from
general knowledge, on which R103 rests (log entry 14, PRESUMED). -/
def Obligations.MulRoundsDown : Prop :=
  ∀ s t : State, exec .mul s = .next t → t.status.getLsbD 3 = false →
    t.result.toInt * 65536 ≤ s.opa.toInt * s.opb.toInt ∧ s.opa.toInt * s.opb.toInt < (t.result.toInt + 1) * 65536

/-- The laws of MUL: 1.0 is its identity, exactly and without OVF; it commutes, event included; zero gives zero; OPA and
OPB keep their words (R105). -/
def Obligations.MulLaws : Prop :=
  (∀ s : State, s.opb = 0x00010000#32 →
    exec .mul s = .next { s with result := s.opa, status := s.status &&& 0xFFFFFFF0#32 }) ∧
  (∀ s : State, ∃ t u, exec .mul s = .next t ∧ exec .mul { s with opa := s.opb, opb := s.opa } = .next u ∧
    u.result = t.result ∧ u.eventBits = t.eventBits) ∧
  (∀ s : State, s.opb = 0x00000000#32 →
    exec .mul s = .next { s with result := 0x00000000#32, status := s.status &&& 0xFFFFFFF0#32 }) ∧
  (∀ s t : State, exec .mul s = .next t → t.opa = s.opa ∧ t.opb = s.opb)

/-! ### DIV (spec/41_divide.md) -/

/-- DIV, for every pair of operands: the sign-correct extreme under the guard, otherwise the truncated quotient (R111, R112). -/
def Obligations.DivWritesQuotientOrSaturates : Prop :=
  ∀ s : State,
    exec .div s = .next
      (if s.opb.toInt.natAbs ≤ s.opa.toInt.natAbs / 2 ^ 14 then
        { s with result := if s.opa.msb = s.opb.msb then 0x7FFFFFFF#32 else 0x80000000#32,
                 status := (s.status &&& 0xFFFFFFF0#32) ||| 0x00000101#32 }
      else
        { s with result := BitVec.ofInt 32 (Int.tdiv (s.opa.toInt * 65536) s.opb.toInt),
                 status := s.status &&& 0xFFFFFFF0#32 })

/-- A zero divisor saturates by the dividend's sign, for every dividend (R113). -/
def Obligations.DivByZeroSaturates : Prop :=
  ∀ s : State, s.opb = 0x00000000#32 →
    exec .div s = .next { s with result := if s.opa.getLsbD 31 then 0x80000000#32 else 0x7FFFFFFF#32,
                                 status := (s.status &&& 0xFFFFFFF0#32) ||| 0x00000101#32 }

/-- A zero dividend gives 0 without an event, and 0 / 0 is pinned at MAXF with SAT (R114). -/
def Obligations.DivOfZero : Prop :=
  (∀ s : State, s.opa = 0x00000000#32 → s.opb ≠ 0x00000000#32 →
    exec .div s = .next { s with result := 0x00000000#32, status := s.status &&& 0xFFFFFFF0#32 }) ∧
  (∀ s : State, s.opa = 0x00000000#32 → s.opb = 0x00000000#32 →
    exec .div s = .next { s with result := 0x7FFFFFFF#32, status := (s.status &&& 0xFFFFFFF0#32) ||| 0x00000101#32 })

/-- The most negative word as dividend and as divisor (R115). -/
def Obligations.DivMostNegative : Prop :=
  (∀ s : State, s.opa = 0x80000000#32 → 0 < s.opb.toInt → s.opb.toInt ≤ 2 ^ 17 →
    exec .div s = .next { s with result := 0x80000000#32, status := (s.status &&& 0xFFFFFFF0#32) ||| 0x00000101#32 }) ∧
  (∀ s : State, s.opa = 0x80000000#32 → -2 ^ 17 ≤ s.opb.toInt → s.opb.toInt < 0 →
    exec .div s = .next { s with result := 0x7FFFFFFF#32, status := (s.status &&& 0xFFFFFFF0#32) ||| 0x00000101#32 }) ∧
  (∀ s : State, s.opa = 0x80000000#32 → s.opb = 0x80000000#32 →
    exec .div s = .next { s with result := 0x00010000#32, status := s.status &&& 0xFFFFFFF0#32 }) ∧
  (∀ s : State, s.opb = 0x80000000#32 → ∃ t, exec .div s = .next t ∧ t.eventBits = 0b0000#4)

/-- DIV saturates exactly when the magnitudes differ by a factor of 2^14 or more, which for a nonzero divisor is a
quotient of magnitude 2^30 or more, half the representable range; it then leaves MAXF or MINF (R117). -/
def Obligations.DivGuardIsConservative : Prop :=
  ∀ s : State, ∃ t, exec .div s = .next t ∧
    (t.status.getLsbD 0 = true ↔ 2 ^ 14 * mag s.opb ≤ mag s.opa) ∧
    (s.opb ≠ 0x00000000#32 → (t.status.getLsbD 0 = true ↔ 2 ^ 30 ≤ mag s.opa * 2 ^ 16 / mag s.opb)) ∧
    (t.status.getLsbD 0 = true → t.result = 0x7FFFFFFF#32 ∨ t.result = 0x80000000#32)

/-- Without SAT the result, read signed, is the exact truncated quotient and its magnitude is below 2^30; the widened
dividend needs 48 bits (R118). -/
def Obligations.DivNeverWraps : Prop :=
  ∀ s t : State, exec .div s = .next t → t.status.getLsbD 0 = false →
    t.result.toInt = Int.tdiv (s.opa.toInt * 2 ^ 16) s.opb.toInt ∧ t.result.toInt.natAbs < 2 ^ 30 ∧
    -2 ^ 47 ≤ s.opa.toInt * 2 ^ 16 ∧ s.opa.toInt * 2 ^ 16 < 2 ^ 47

/-- DIV is sign-symmetric where it does not saturate and neither operand is the most negative word (R116). -/
def Obligations.DivSignSymmetric : Prop :=
  ∀ s t : State, s.opa ≠ 0x80000000#32 → s.opb ≠ 0x80000000#32 → exec .div s = .next t → t.status.getLsbD 0 = false →
    exec .div { s with opa := -s.opa } =
      .next { s with opa := -s.opa, result := -t.result, status := s.status &&& 0xFFFFFFF0#32 } ∧
    exec .div { s with opb := -s.opb } =
      .next { s with opb := -s.opb, result := -t.result, status := s.status &&& 0xFFFFFFF0#32 }

/-! ### RECIP (spec/42_reciprocal.md) -/

/-- The closed form of the range-reduction loop: the least count that brings the magnitude into the table's domain,
0 to 15, 15 exactly from 2^30 + 2^14 on (R124, R13). -/
def Obligations.RangeReductionClosedForm : Prop :=
  ∀ m0 : Nat, 1 ≤ m0 → m0 ≤ 2 ^ 31 →
    ∃ k, rangeReduce m0 = (m0 / 2 ^ k, k) ∧ (m0 ≤ 65536 → k = 0) ∧ m0 / 2 ^ k ≤ 65536 ∧
      (∀ j, j < k → 65536 < m0 / 2 ^ j) ∧ (65536 < m0 → 32768 ≤ m0 / 2 ^ k) ∧ k ≤ 15 ∧
      (k = 15 ↔ 2 ^ 30 + 2 ^ 14 ≤ m0)

/-- RECIP of every word: zero is a domain error; any other word is reduced to an index of 1 to 65536, looked up, shifted
right by the number of halvings and given the word's sign (R123, R125). -/
def Obligations.RecipLooksUpReducedMagnitude : Prop :=
  ∀ s : State,
    (s.opb = 0x00000000#32 →
      exec .recip s = .next { s with result := 0x00000000#32, status := (s.status &&& 0xFFFFFFF0#32) ||| 0x00000202#32 }) ∧
    (s.opb ≠ 0x00000000#32 →
      ∃ k m, m = s.opb.toInt.natAbs / 2 ^ k ∧ 1 ≤ m ∧ m ≤ 65536 ∧ (∀ j, j < k → 65536 < s.opb.toInt.natAbs / 2 ^ j) ∧
        exec .recip s = .next { s with
          result := if s.opb.getLsbD 31 then -(rtabAt s m >>> k) else rtabAt s m >>> k
          status := s.status &&& 0xFFFFFFF0#32 })

/-- For every table meeting the contract, RECIP does not rise on 0 < v1 < v2 <= SCALE (R129 (a)). -/
def Obligations.RecipMonotoneBelowOne : Prop :=
  ∀ s s' t t' : State, RtabGood s → s'.rtab = s.rtab → 0 < s.opb.toNat → s.opb.toNat < s'.opb.toNat →
    s'.opb.toNat ≤ 65536 → exec .recip s = .next t → exec .recip s' = .next t' → t'.result.toInt ≤ t.result.toInt

/-- RECIP of the negated word is the negated reciprocal, as words for every table and as signed values for every table
meeting the contract (R129 (b), R127). -/
def Obligations.RecipSignSymmetric : Prop :=
  ∀ s t t' : State, s.opb ≠ 0x00000000#32 → s.opb ≠ 0x80000000#32 →
    exec .recip s = .next t → exec .recip { s with opb := -s.opb } = .next t' →
    t'.result = -t.result ∧ (RtabGood s → t'.result.toInt = -t.result.toInt)

/-- The reference table meets the contract, holds the clamped floor quotients, and falls strictly from entry 2 on (R122). -/
def Obligations.ReferenceTableMeetsContract : Prop :=
  Config.RtabContract Config.rtabRef ∧ Config.rtabRef 0 = 0x7FFFFFFF#32 ∧
  (∀ i, 1 ≤ i → i ≤ 65536 → (Config.rtabRef i).toNat = min (2 ^ 32 / i) (2 ^ 31 - 1)) ∧
  (∀ i j, 2 ≤ i → i < j → j ≤ 65536 → (Config.rtabRef j).toNat < (Config.rtabRef i).toNat)

/-- The model's parameter leaves no table of the contract out: a raw function that meets the contract is left as it is
on 1 to 65536 (the model's choice, log entry 9). -/
def Obligations.ParameterCoversEveryContractTable : Prop :=
  ∀ table : Nat → Word, Config.RtabContract table → ∀ i, 1 ≤ i → i ≤ 65536 → Config.boundedTable table i = table i

/-! ### ADIV (spec/43_approx_divide.md) -/

/-- ADIV, for every pair of operands: a domain error at a zero divisor, otherwise MUL of OPA and what RECIP gives, its
overflow included (R141, R142). The floor of a negative product rests on R16's passage from general knowledge (log entry
14, PRESUMED). -/
def Obligations.AdivMultipliesByReciprocal : Prop :=
  ∀ s : State,
    (s.opb = 0x00000000#32 →
      exec .adiv s = .next { s with result := 0x00000000#32, status := (s.status &&& 0xFFFFFFF0#32) ||| 0x00000202#32 }) ∧
    (s.opb ≠ 0x00000000#32 →
      ∃ r, exec .recip s = .next r ∧
        let q : Int := Int.fdiv (s.opa.toInt * r.result.toInt) 65536
        exec .adiv s = .next { s with
          result := BitVec.ofInt 32 q
          status := (s.status &&& 0xFFFFFFF0#32) ||| (if q < -2 ^ 31 ∨ q > 2 ^ 31 - 1 then 0x00000808#32 else 0x00000000#32) })

/-! ### MOD (spec/44_modulo.md) -/

/-- MOD with a nonzero modulus leaves the Euclidean residue, on whichever path: in range, bit 31 clear, the masking path
equal to the general one, and the modulus's sign without effect (R157). -/
def Obligations.ModIsEuclideanResidue : Prop :=
  (∀ s : State, s.opb ≠ 0x00000000#32 →
    exec .mod s = .next { s with result := BitVec.ofInt 32 (s.opa.toInt % (s.opb.toInt.natAbs : Int)),
                                 status := s.status &&& 0xFFFFFFF0#32 }) ∧
  (∀ s t : State, s.opb ≠ 0x00000000#32 → exec .mod s = .next t →
    0 ≤ t.result.toInt ∧ t.result.toInt < s.opb.toInt.natAbs ∧ (s.opb.toInt.natAbs : Int) ∣ s.opa.toInt - t.result.toInt ∧
    t.result.getLsbD 31 = false) ∧
  (∀ (a : Word) (k : Nat), k < 32 → a &&& modMask (1#32 <<< k) = generalMod a (1#32 <<< k)) ∧
  (∀ s t : State, s.opb ≠ 0x00000000#32 → s.opb ≠ 0x80000000#32 → exec .mod s = .next t →
    exec .mod { s with opb := -s.opb } = .next { t with opb := -s.opb })

/-- A zero modulus is a domain error for every dividend, 0 included; a zero dividend of any other modulus gives 0 (R153, R154). -/
def Obligations.ModZeroOperands : Prop :=
  (∀ s : State, s.opb = 0x00000000#32 →
    exec .mod s = .next { s with result := 0x00000000#32, status := (s.status &&& 0xFFFFFFF0#32) ||| 0x00000202#32 }) ∧
  (∀ s : State, s.opa = 0x00000000#32 → s.opb ≠ 0x00000000#32 →
    exec .mod s = .next { s with result := 0x00000000#32, status := s.status &&& 0xFFFFFFF0#32 })

/-- MOD's own test for its fast path holds, of nonzero words, exactly on the 32 powers of two, 0x80000000 among them, and
there MOD masks (R152, R156). -/
def Obligations.ModFastPathIsPowersOfTwo : Prop :=
  (∀ b : Word, b ≠ 0x00000000#32 → (fastPath b = true ↔ ∃ k, k < 32 ∧ b = 1#32 <<< k)) ∧
  (∀ (s : State) (k : Nat), k < 32 → s.opb = 1#32 <<< k →
    exec .mod s = .next { s with result := s.opa &&& (s.opb - 1#32), status := s.status &&& 0xFFFFFFF0#32 })

/-! ### Registers, bus and interrupt (spec/10_state.md, spec/20_memory.md, spec/60_exceptions.md) -/

/-- The data of every accepted read; a read changes no register (R57). -/
def Obligations.ReadReturnsRegister : Prop :=
  ∀ (s : State) (off : Nat) (rest : List Input), s.inReset = false → off % 4 = 0 → off ≤ 0x3C →
    s.inputs = .access ⟨.read, off, 4⟩ :: rest →
    step s = .next { s with
      inputs := rest
      response := some (.data (
        if off = 0x00 then s.opa else if off = 0x04 then s.opb else if off = 0x08 then s.cmd
        else if off = 0x0C then s.result else if off = 0x10 then s.status &&& 0x00000F0F#32
        else if off = 0x14 then s.ctrl &&& 0x0000000F#32 else if off = 0x18 then 0x00012010#32 else 0x00000000#32)) }

/-- The effect of every accepted write, irq included; a CMD write stores the word and executes it (R58). -/
def Obligations.WriteChangesItsRegisterAlone : Prop :=
  ∀ (s : State) (off : Nat) (v : Word) (rest : List Input), s.inReset = false → off % 4 = 0 → off ≤ 0x3C →
    s.inputs = .access ⟨.write v, off, 4⟩ :: rest →
    let s' : State := { s with inputs := rest, response := some .written }
    step s =
      (if off = 0x00 then .next { s' with opa := v }
      else if off = 0x04 then .next { s' with opb := v }
      else if off = 0x08 then execute v { s' with cmd := v }
      else if off = 0x10 then .next { s' with status := s.status &&& ~~~(v &&& 0x00000F00#32) }
      else if off = 0x14 then .next { s' with ctrl := (s.ctrl &&& 0xFFFFFFF0#32) ||| (v &&& 0x0000000F#32) }
      else .next s') ∧
    ∀ t, step s = .next t → (t.irq = true ↔ ∃ i, i < 4 ∧ t.status.getLsbD (8 + i) = true ∧ t.ctrl.getLsbD i = true)

/-- irq is high exactly when some code's sticky bit and enable are both 1 (R31). -/
def Obligations.IrqIsStickyAndEnabled : Prop :=
  ∀ s : State, s.irq = true ↔ ∃ i, i < 4 ∧ s.status.getLsbD (8 + i) = true ∧ s.ctrl.getLsbD i = true

/-- The sticky bits: whatever word is executed, an event sets its sticky bit and none is lost; a STATUS write clears
those written with 1 and touches no other bit of STATUS (R27). -/
def Obligations.StickyBitsAccumulate : Prop :=
  (∀ (c : Word) (s : State), ∃ t, execute c s = .next t ∧
    ∀ i, i < 4 → (t.status.getLsbD i = true → t.status.getLsbD (8 + i) = true) ∧
      (s.status.getLsbD (8 + i) = true → t.status.getLsbD (8 + i) = true)) ∧
  (∀ (s : State) (v : Word) (rest : List Input), s.inReset = false →
    s.inputs = .access ⟨.write v, 0x10, 4⟩ :: rest →
    ∃ t, step s = .next t ∧
      ∀ j, t.status.getLsbD j = (s.status.getLsbD j && !(decide (8 ≤ j ∧ j < 12) && v.getLsbD j)))

/-- A sticky bit goes from 1 to 0 only by a write of 1 to it at STATUS, or by the reset line (R168). -/
def Obligations.StickyClearedOnlyByWriteOrReset : Prop :=
  ∀ (s t : State) (i : Nat), i < 4 → step s = .next t → s.status.getLsbD (8 + i) = true →
    t.status.getLsbD (8 + i) = false →
    (∃ v rest, s.inputs = .access ⟨.write v, 0x10, 4⟩ :: rest ∧ v.getLsbD (8 + i) = true) ∨
    (∃ b rest, s.inputs = .resetLine b :: rest)

/-- raise: the event's per-command and sticky bits become 1, no other bit and no other part of the state changes, and
irq follows (R166). -/
def Obligations.RaiseRecordsItsTwoBits : Prop :=
  ∀ (e : Event) (s : State),
    (raise e s).status.getLsbD e.code = true ∧ (raise e s).status.getLsbD (8 + e.code) = true ∧
    (∀ j, j ≠ e.code → j ≠ 8 + e.code → (raise e s).status.getLsbD j = s.status.getLsbD j) ∧
    raise e s = { s with status := (raise e s).status } ∧
    ((raise e s).irq = true ↔ s.irq = true ∨ s.ctrl.getLsbD e.code = true)

/-- Writes to RESULT, INFO and reserved offsets are answered and do nothing, STATUS outside 11:8 and CTRL outside 3:0 keep
their bits, and reserved offsets read 0 (R35). -/
def Obligations.ReadOnlyWritesIgnored : Prop :=
  (∀ (s : State) (off : Nat) (v : Word) (rest : List Input), s.inReset = false → off % 4 = 0 →
    (off = 0x0C ∨ (0x18 ≤ off ∧ off ≤ 0x3C)) → s.inputs = .access ⟨.write v, off, 4⟩ :: rest →
    step s = .next { s with inputs := rest, response := some .written }) ∧
  (∀ (s : State) (v : Word) (rest : List Input), s.inReset = false → s.inputs = .access ⟨.write v, 0x10, 4⟩ :: rest →
    ∃ t, step s = .next t ∧ t.response = some .written ∧ ∀ j, j < 8 ∨ 12 ≤ j → t.status.getLsbD j = s.status.getLsbD j) ∧
  (∀ (s : State) (v : Word) (rest : List Input), s.inReset = false → s.inputs = .access ⟨.write v, 0x14, 4⟩ :: rest →
    ∃ t, step s = .next t ∧ t.response = some .written ∧ ∀ j, 4 ≤ j → t.ctrl.getLsbD j = s.ctrl.getLsbD j) ∧
  (∀ (s : State) (off : Nat) (rest : List Input), s.inReset = false → off % 4 = 0 → 0x1C ≤ off → off ≤ 0x3C →
    s.inputs = .access ⟨.read, off, 4⟩ :: rest →
    step s = .next { s with inputs := rest, response := some (.data 0x00000000#32) })

/-- A sub-word or misaligned access in the window is answered with BusError, which carries no data, and changes no
register; so a partial write to CMD performs no command (R54). That this is a step that completes, where R55 speaks of a
fault of the host's run, is the model's inference (log entry 4, DEDUCED). -/
def Obligations.UnacceptedAccessGetsBusError : Prop :=
  ∀ (s : State) (a : Access) (rest : List Input), s.inReset = false → s.inputs = .access a :: rest → a.off < 64 →
    a.kind ≠ .fetch → (a.size ≠ 4 ∨ a.off % 4 ≠ 0) →
    step s = .next { s with inputs := rest, response := some .busError }

/-- Where a step stops: outside the window, on any access during reset, and on a fetch from the window (R50, R65, R190;
log entries 5, 6 and 7). -/
def Obligations.StepStopsByName : Prop :=
  (∀ (s : State) (a : Access) (rest : List Input), s.inputs = .access a :: rest → 64 ≤ a.off →
    step s = .fault .outsideWindow) ∧
  (∀ (s : State) (a : Access) (rest : List Input), s.inputs = .access a :: rest → a.off < 64 → s.inReset = true →
    step s = .refused .accessDuringReset) ∧
  (∀ (s : State) (a : Access) (rest : List Input), s.inputs = .access a :: rest → a.off < 64 → s.inReset = false →
    a.kind = .fetch → step s = .refused .fetchFromWindow)

/-- Every read or write that reaches the window outside reset completes in one step, and its answer is BusError exactly
when R53 does not accept it (R53, R54, R180). R180 speaks of accepted accesses; that the others complete as well is the
model's inference from R54 and R55 (log entry 4, DEDUCED). -/
def Obligations.EveryAccessCompletes : Prop :=
  ∀ (s : State) (a : Access) (rest : List Input), s.inReset = false → s.inputs = .access a :: rest → a.off < 64 →
    a.kind ≠ .fetch →
    ∃ t, step s = .next t ∧ t.inputs = rest ∧ t.inReset = false ∧
      (t.response = some .busError ↔ ¬(a.size = 4 ∧ a.off % 4 = 0 ∧ a.off ≤ 0x3C))

/-- Inputs are performed one by one in order of arrival, and a read of RESULT, then of STATUS, right after a command's
write returns that command's outcome (R61). -/
def Obligations.ReadsAfterCommandSeeItsOutcome : Prop :=
  (∀ (s t : State) (x : Input) (rest : List Input), s.inputs = x :: rest → step s = .next t → t.inputs = rest) ∧
  (∀ (s : State) (i : Instr) (rest : List Input), s.inReset = false →
    s.inputs = .access ⟨.write (encode i), 0x08, 4⟩ :: .access ⟨.read, 0x0C, 4⟩ :: .access ⟨.read, 0x10, 4⟩ :: rest →
    ∃ r t u v, exec i s = .next r ∧ step s = .next t ∧ step t = .next u ∧ step u = .next v ∧
      u.response = some (.data r.result) ∧ v.response = some (.data (r.status &&& 0x00000F0F#32)))

/-- Repeating an accepted write, a CMD write of any word included, leaves the same state as doing it once (R60). -/
def Obligations.RepeatedWriteIsIdempotent : Prop :=
  ∀ (s : State) (off : Nat) (v : Word) (rest : List Input), s.inReset = false → off % 4 = 0 → off ≤ 0x3C →
    s.inputs = .access ⟨.write v, off, 4⟩ :: .access ⟨.write v, off, 4⟩ :: rest →
    ∃ t, step s = .next t ∧ step t = .next { t with inputs := rest }

/-- Which input can change which register: OPA, OPB, CMD and CTRL only a write to them, RESULT only a CMD write, STATUS
only a CMD or a STATUS write; otherwise only the reset line does (R37, R190, R197). -/
def Obligations.RegistersChangeOnlyByTheirWrites : Prop :=
  ∀ s t : State, step s = .next t → (∀ b rest, s.inputs ≠ .resetLine b :: rest) →
    (t.opa ≠ s.opa → ∃ v rest, s.inputs = .access ⟨.write v, 0x00, 4⟩ :: rest ∧ t.opa = v) ∧
    (t.opb ≠ s.opb → ∃ v rest, s.inputs = .access ⟨.write v, 0x04, 4⟩ :: rest ∧ t.opb = v) ∧
    (t.cmd ≠ s.cmd → ∃ v rest, s.inputs = .access ⟨.write v, 0x08, 4⟩ :: rest ∧ t.cmd = v) ∧
    (t.result ≠ s.result → ∃ v rest, s.inputs = .access ⟨.write v, 0x08, 4⟩ :: rest ∧ v.toNat ≤ 4) ∧
    (t.status ≠ s.status → ∃ v rest, s.inputs = .access ⟨.write v, 0x08, 4⟩ :: rest ∨
      s.inputs = .access ⟨.write v, 0x10, 4⟩ :: rest) ∧
    (t.ctrl ≠ s.ctrl → ∃ v rest, s.inputs = .access ⟨.write v, 0x14, 4⟩ :: rest) ∧
    t.inReset = s.inReset

/-- A handler that used the FXU restores the interrupted command by writing OPA and OPB back and re-issuing the command:
RESULT and STATUS[3:0] are as they were, whatever the handler left (R172, for a legal command; log entry 13). -/
def Obligations.ReissuedCommandRestoresOutcome : Prop :=
  ∀ (i : Instr) (s t h : State) (rest : List Input), exec i s = .next t → h.rtab = t.rtab → h.inReset = false →
    h.inputs = .access ⟨.write t.opa, 0x00, 4⟩ :: .access ⟨.write t.opb, 0x04, 4⟩ ::
      .access ⟨.write (encode i), 0x08, 4⟩ :: rest →
    ∃ u : State, Host.Core.run core 3 h = .next u ∧ u.opa = t.opa ∧ u.opb = t.opb ∧ u.cmd = encode i ∧
      u.result = t.result ∧ u.eventBits = t.eventBits ∧ u.ctrl = h.ctrl ∧
      u.stickyBits = h.stickyBits ||| t.eventBits

/-- A host address FXU_BASE + off with off below 64 reaches the port as offset off, and no other address reaches the
window; FXU_BASE is aligned and the window does not wrap (R11, R18, R50; log entry 10). -/
def Obligations.WindowIsSixtyFourBytesAtBase : Prop :=
  Config.fxuBase.toNat % 64 = 0 ∧ Config.fxuBase.toNat + 63 < 2 ^ 32 ∧
  (∀ (k : AccessKind) (off size : Nat), off < 64 →
    accessAtAddress k (Config.fxuBase + BitVec.ofNat 32 off) size = ⟨k, off, size⟩) ∧
  (∀ (k : AccessKind) (addr : Word) (size : Nat), (accessAtAddress k addr size).inWindow = true ↔
    Config.fxuBase.toNat ≤ addr.toNat ∧ addr.toNat < Config.fxuBase.toNat + 64)

/-- A Q16.16 literal stands for the word whose signed value is exactly d * 65536, and is an error when there is none:
never rounded (R79). -/
def Obligations.LiteralIsExact : Prop :=
  ∀ (digits : Int) (places : Nat) (w : Word),
    qLiteral digits places = some w ↔ w.toInt * 10 ^ places = digits * 65536

/-! ### Reset and the invariants of the machine (spec/70_reset_and_hazards.md) -/

/-- Every register after reset, irq low, what each offset then reads, and that releasing reset leaves RTAB as it was (R33). -/
def Obligations.ResetValues : Prop :=
  State.reset.opa = 0x00000000#32 ∧ State.reset.opb = 0x00000000#32 ∧ State.reset.cmd = 0x00000000#32 ∧
  State.reset.result = 0x00000000#32 ∧ State.reset.status = 0x00000000#32 ∧ State.reset.ctrl = 0x00000000#32 ∧
  State.reset.irq = false ∧
  (∀ off, off % 4 = 0 → off ≤ 0x3C → busRead off State.reset = if off = 0x18 then 0x00012010#32 else 0x00000000#32) ∧
  (∀ (s : State) (rest : List Input), s.inReset = true → s.inputs = .resetLine false :: rest →
    ∃ t, step s = .next t ∧ rtabAt t = rtabAt s)

/-- Releasing reset leaves every register at its reset value, performs no command and does not touch RTAB; neither does
asserting it (R190, R191, R192). -/
def Obligations.ResetLeavesTableAndClearsRegisters : Prop :=
  (∀ (s : State) (rest : List Input), s.inReset = true → s.inputs = .resetLine false :: rest →
    step s = .next { State.reset with rtab := s.rtab, inputs := rest }) ∧
  (∀ (s : State) (b : Bool) (rest : List Input), s.inputs = .resetLine b :: rest →
    ∃ t, step s = .next t ∧ t.rtab = s.rtab ∧ t.inReset = b)

/-- No step changes RTAB, so a table that meets the contract goes on meeting it (R32). -/
def Obligations.StepKeepsTable : Prop :=
  ∀ s t : State, step s = .next t → (∀ i, rtabAt t i = rtabAt s i) ∧ (RtabGood s → RtabGood t)

/-- The table of the machine after reset meets the contract (the model's choice of the parameter, log entry 9). -/
def Obligations.ResetTableMeetsContract : Prop := RtabGood State.reset

/-- STATUS, CMD and RESULT agree right after reset. That reserved bits are held, as 0, is the model's choice (log entry 17). -/
def Obligations.ResetIsConsistent : Prop := Consistent State.reset

/-- Every step keeps STATUS, CMD and RESULT in agreement: the reserved bits stay 0, at most one per-command bit is 1, and
the bits describe the last command performed: ILL exactly with an illegal CMD word, SAT with DIV and a saturated RESULT,
DOM with RECIP, ADIV or MOD and RESULT 0, OVF with MUL or ADIV, and after MOD a non-negative RESULT (R26, R28, R157, R161
to R164, R167, R171). That reserved bits are held, as 0, and what the registers hold while reset is asserted are the model's
choices (log entries 17 and 8). -/
def Obligations.StepKeepsConsistency : Prop :=
  ∀ s t : State, Consistent s → step s = .next t → Consistent t
end

