-- ==== Sys2Proof/Laws/State.lean ====
section
/-! SUPPORT. One lemma per field per update of the state, so that no proof unfolds a record update. -/

namespace Sys2Proof.Machine

variable (s : State)

@[simp] theorem State.setOpa_opa (v : Word) : (s.setOpa v).opa = v := rfl
@[simp] theorem State.setOpa_opb (v : Word) : (s.setOpa v).opb = s.opb := rfl
@[simp] theorem State.setOpa_cmd (v : Word) : (s.setOpa v).cmd = s.cmd := rfl
@[simp] theorem State.setOpa_result (v : Word) : (s.setOpa v).result = s.result := rfl
@[simp] theorem State.setOpa_status (v : Word) : (s.setOpa v).status = s.status := rfl
@[simp] theorem State.setOpa_ctrl (v : Word) : (s.setOpa v).ctrl = s.ctrl := rfl
@[simp] theorem State.setOpa_rtab (v : Word) : (s.setOpa v).rtab = s.rtab := rfl
@[simp] theorem State.setOpa_inReset (v : Word) : (s.setOpa v).inReset = s.inReset := rfl
@[simp] theorem State.setOpa_inputs (v : Word) : (s.setOpa v).inputs = s.inputs := rfl
@[simp] theorem State.setOpa_response (v : Word) : (s.setOpa v).response = s.response := rfl

@[simp] theorem State.setOpb_opa (v : Word) : (s.setOpb v).opa = s.opa := rfl
@[simp] theorem State.setOpb_opb (v : Word) : (s.setOpb v).opb = v := rfl
@[simp] theorem State.setOpb_cmd (v : Word) : (s.setOpb v).cmd = s.cmd := rfl
@[simp] theorem State.setOpb_result (v : Word) : (s.setOpb v).result = s.result := rfl
@[simp] theorem State.setOpb_status (v : Word) : (s.setOpb v).status = s.status := rfl
@[simp] theorem State.setOpb_ctrl (v : Word) : (s.setOpb v).ctrl = s.ctrl := rfl
@[simp] theorem State.setOpb_rtab (v : Word) : (s.setOpb v).rtab = s.rtab := rfl
@[simp] theorem State.setOpb_inReset (v : Word) : (s.setOpb v).inReset = s.inReset := rfl
@[simp] theorem State.setOpb_inputs (v : Word) : (s.setOpb v).inputs = s.inputs := rfl
@[simp] theorem State.setOpb_response (v : Word) : (s.setOpb v).response = s.response := rfl

@[simp] theorem State.setCmd_opa (v : Word) : (s.setCmd v).opa = s.opa := rfl
@[simp] theorem State.setCmd_opb (v : Word) : (s.setCmd v).opb = s.opb := rfl
@[simp] theorem State.setCmd_cmd (v : Word) : (s.setCmd v).cmd = v := rfl
@[simp] theorem State.setCmd_result (v : Word) : (s.setCmd v).result = s.result := rfl
@[simp] theorem State.setCmd_status (v : Word) : (s.setCmd v).status = s.status := rfl
@[simp] theorem State.setCmd_ctrl (v : Word) : (s.setCmd v).ctrl = s.ctrl := rfl
@[simp] theorem State.setCmd_rtab (v : Word) : (s.setCmd v).rtab = s.rtab := rfl
@[simp] theorem State.setCmd_inReset (v : Word) : (s.setCmd v).inReset = s.inReset := rfl
@[simp] theorem State.setCmd_inputs (v : Word) : (s.setCmd v).inputs = s.inputs := rfl
@[simp] theorem State.setCmd_response (v : Word) : (s.setCmd v).response = s.response := rfl

@[simp] theorem State.setResult_opa (v : Word) : (s.setResult v).opa = s.opa := rfl
@[simp] theorem State.setResult_opb (v : Word) : (s.setResult v).opb = s.opb := rfl
@[simp] theorem State.setResult_cmd (v : Word) : (s.setResult v).cmd = s.cmd := rfl
@[simp] theorem State.setResult_result (v : Word) : (s.setResult v).result = v := rfl
@[simp] theorem State.setResult_status (v : Word) : (s.setResult v).status = s.status := rfl
@[simp] theorem State.setResult_ctrl (v : Word) : (s.setResult v).ctrl = s.ctrl := rfl
@[simp] theorem State.setResult_rtab (v : Word) : (s.setResult v).rtab = s.rtab := rfl
@[simp] theorem State.setResult_inReset (v : Word) : (s.setResult v).inReset = s.inReset := rfl
@[simp] theorem State.setResult_inputs (v : Word) : (s.setResult v).inputs = s.inputs := rfl
@[simp] theorem State.setResult_response (v : Word) : (s.setResult v).response = s.response := rfl

@[simp] theorem State.setStatus_opa (v : Word) : (s.setStatus v).opa = s.opa := rfl
@[simp] theorem State.setStatus_opb (v : Word) : (s.setStatus v).opb = s.opb := rfl
@[simp] theorem State.setStatus_cmd (v : Word) : (s.setStatus v).cmd = s.cmd := rfl
@[simp] theorem State.setStatus_result (v : Word) : (s.setStatus v).result = s.result := rfl
@[simp] theorem State.setStatus_status (v : Word) : (s.setStatus v).status = v := rfl
@[simp] theorem State.setStatus_ctrl (v : Word) : (s.setStatus v).ctrl = s.ctrl := rfl
@[simp] theorem State.setStatus_rtab (v : Word) : (s.setStatus v).rtab = s.rtab := rfl
@[simp] theorem State.setStatus_inReset (v : Word) : (s.setStatus v).inReset = s.inReset := rfl
@[simp] theorem State.setStatus_inputs (v : Word) : (s.setStatus v).inputs = s.inputs := rfl
@[simp] theorem State.setStatus_response (v : Word) : (s.setStatus v).response = s.response := rfl

@[simp] theorem State.setCtrl_opa (v : Word) : (s.setCtrl v).opa = s.opa := rfl
@[simp] theorem State.setCtrl_opb (v : Word) : (s.setCtrl v).opb = s.opb := rfl
@[simp] theorem State.setCtrl_cmd (v : Word) : (s.setCtrl v).cmd = s.cmd := rfl
@[simp] theorem State.setCtrl_result (v : Word) : (s.setCtrl v).result = s.result := rfl
@[simp] theorem State.setCtrl_status (v : Word) : (s.setCtrl v).status = s.status := rfl
@[simp] theorem State.setCtrl_ctrl (v : Word) : (s.setCtrl v).ctrl = v := rfl
@[simp] theorem State.setCtrl_rtab (v : Word) : (s.setCtrl v).rtab = s.rtab := rfl
@[simp] theorem State.setCtrl_inReset (v : Word) : (s.setCtrl v).inReset = s.inReset := rfl
@[simp] theorem State.setCtrl_inputs (v : Word) : (s.setCtrl v).inputs = s.inputs := rfl
@[simp] theorem State.setCtrl_response (v : Word) : (s.setCtrl v).response = s.response := rfl

@[simp] theorem State.respond_opa (v : Response) : (s.respond v).opa = s.opa := rfl
@[simp] theorem State.respond_opb (v : Response) : (s.respond v).opb = s.opb := rfl
@[simp] theorem State.respond_cmd (v : Response) : (s.respond v).cmd = s.cmd := rfl
@[simp] theorem State.respond_result (v : Response) : (s.respond v).result = s.result := rfl
@[simp] theorem State.respond_status (v : Response) : (s.respond v).status = s.status := rfl
@[simp] theorem State.respond_ctrl (v : Response) : (s.respond v).ctrl = s.ctrl := rfl
@[simp] theorem State.respond_rtab (v : Response) : (s.respond v).rtab = s.rtab := rfl
@[simp] theorem State.respond_inReset (v : Response) : (s.respond v).inReset = s.inReset := rfl
@[simp] theorem State.respond_inputs (v : Response) : (s.respond v).inputs = s.inputs := rfl
@[simp] theorem State.respond_response (v : Response) : (s.respond v).response = some v := rfl

@[simp] theorem State.setInputs_opa (v : List Input) : (s.setInputs v).opa = s.opa := rfl
@[simp] theorem State.setInputs_opb (v : List Input) : (s.setInputs v).opb = s.opb := rfl
@[simp] theorem State.setInputs_cmd (v : List Input) : (s.setInputs v).cmd = s.cmd := rfl
@[simp] theorem State.setInputs_result (v : List Input) : (s.setInputs v).result = s.result := rfl
@[simp] theorem State.setInputs_status (v : List Input) : (s.setInputs v).status = s.status := rfl
@[simp] theorem State.setInputs_ctrl (v : List Input) : (s.setInputs v).ctrl = s.ctrl := rfl
@[simp] theorem State.setInputs_rtab (v : List Input) : (s.setInputs v).rtab = s.rtab := rfl
@[simp] theorem State.setInputs_inReset (v : List Input) : (s.setInputs v).inReset = s.inReset := rfl
@[simp] theorem State.setInputs_inputs (v : List Input) : (s.setInputs v).inputs = v := rfl
@[simp] theorem State.setInputs_response (v : List Input) : (s.setInputs v).response = s.response := rfl

@[simp] theorem clearEvents_opa : (clearEvents s).opa = s.opa := rfl
@[simp] theorem clearEvents_opb : (clearEvents s).opb = s.opb := rfl
@[simp] theorem clearEvents_cmd : (clearEvents s).cmd = s.cmd := rfl
@[simp] theorem clearEvents_result : (clearEvents s).result = s.result := rfl
@[simp] theorem clearEvents_status : (clearEvents s).status = clearEventBits s.status := rfl
@[simp] theorem clearEvents_ctrl : (clearEvents s).ctrl = s.ctrl := rfl
@[simp] theorem clearEvents_rtab : (clearEvents s).rtab = s.rtab := rfl
@[simp] theorem clearEvents_inReset : (clearEvents s).inReset = s.inReset := rfl
@[simp] theorem clearEvents_inputs : (clearEvents s).inputs = s.inputs := rfl
@[simp] theorem clearEvents_response : (clearEvents s).response = s.response := rfl

@[simp] theorem raise_opa (e : Event) : (raise e s).opa = s.opa := rfl
@[simp] theorem raise_opb (e : Event) : (raise e s).opb = s.opb := rfl
@[simp] theorem raise_cmd (e : Event) : (raise e s).cmd = s.cmd := rfl
@[simp] theorem raise_result (e : Event) : (raise e s).result = s.result := rfl
@[simp] theorem raise_status (e : Event) : (raise e s).status = recordEvent e s.status := rfl
@[simp] theorem raise_ctrl (e : Event) : (raise e s).ctrl = s.ctrl := rfl
@[simp] theorem raise_rtab (e : Event) : (raise e s).rtab = s.rtab := rfl
@[simp] theorem raise_inReset (e : Event) : (raise e s).inReset = s.inReset := rfl
@[simp] theorem raise_inputs (e : Event) : (raise e s).inputs = s.inputs := rfl
@[simp] theorem raise_response (e : Event) : (raise e s).response = s.response := rfl

@[simp] theorem resetRegisters_opa : (resetRegisters s).opa = 0x00000000#32 := rfl
@[simp] theorem resetRegisters_opb : (resetRegisters s).opb = 0x00000000#32 := rfl
@[simp] theorem resetRegisters_cmd : (resetRegisters s).cmd = 0x00000000#32 := rfl
@[simp] theorem resetRegisters_result : (resetRegisters s).result = 0x00000000#32 := rfl
@[simp] theorem resetRegisters_status : (resetRegisters s).status = 0x00000000#32 := rfl
@[simp] theorem resetRegisters_ctrl : (resetRegisters s).ctrl = 0x00000000#32 := rfl
@[simp] theorem resetRegisters_rtab : (resetRegisters s).rtab = s.rtab := rfl
@[simp] theorem resetRegisters_inReset : (resetRegisters s).inReset = s.inReset := rfl
@[simp] theorem resetRegisters_inputs : (resetRegisters s).inputs = s.inputs := rfl
@[simp] theorem resetRegisters_response : (resetRegisters s).response = none := rfl

@[simp] theorem State.reset_opa : State.reset.opa = 0x00000000#32 := rfl
@[simp] theorem State.reset_opb : State.reset.opb = 0x00000000#32 := rfl
@[simp] theorem State.reset_cmd : State.reset.cmd = 0x00000000#32 := rfl
@[simp] theorem State.reset_result : State.reset.result = 0x00000000#32 := rfl
@[simp] theorem State.reset_status : State.reset.status = 0x00000000#32 := rfl
@[simp] theorem State.reset_ctrl : State.reset.ctrl = 0x00000000#32 := rfl
@[simp] theorem State.reset_rtab : State.reset.rtab = [] := rfl
@[simp] theorem State.reset_inReset : State.reset.inReset = false := rfl
@[simp] theorem State.reset_inputs : State.reset.inputs = [] := rfl
@[simp] theorem State.reset_response : State.reset.response = none := rfl

/-- RTAB is read through its listed entries alone, so states that list the same read the same. -/
theorem rtabAt_congr {s t : State} (h : t.rtab = s.rtab) : rtabAt t = rtabAt s := by
  funext i
  simp [rtabAt, h]

end Sys2Proof.Machine
end

