-- ==== Sys2Proof/Laws/Flags.lean ====
section
/-! SUPPORT. What the computations on STATUS and CTRL do, bit by bit. -/

namespace Sys2Proof.Machine

/-- The bits a command may leave in STATUS: those of no event, or the per-command and the sticky bit of one. -/
theorem recordEvent_clear (e : Event) (st : Word) :
    recordEvent e (clearEventBits st) = clearEventBits st ||| ((1#32 <<< e.code) ||| (1#32 <<< (8 + e.code))) := by
  simp [recordEvent, BitVec.or_assoc]

theorem getLsbD_clearEventBits (st : Word) (i : Nat) :
    (clearEventBits st).getLsbD i = (decide (4 ≤ i) && st.getLsbD i) := by
  have h : ∀ j : Fin 32, (0xFFFFFFF0#32).getLsbD j = decide (4 ≤ j.val) := by decide
  by_cases hi : i < 32
  · have hm := h ⟨i, hi⟩
    simp only at hm
    rw [clearEventBits, BitVec.getLsbD_and, hm, Bool.and_comm]
  · rw [BitVec.getLsbD_of_ge _ i (Nat.le_of_not_lt hi), BitVec.getLsbD_of_ge _ i (Nat.le_of_not_lt hi), Bool.and_false]

theorem getLsbD_recordEvent (e : Event) (st : Word) (i : Nat) :
    (recordEvent e st).getLsbD i = (st.getLsbD i || decide (i = e.code) || decide (i = 8 + e.code)) := by
  have h : ∀ (j : Fin 32) (k : Fin 12), (1#32 <<< k.val).getLsbD j.val = decide (j.val = k.val) := by decide
  have hc : e.code < 4 := by cases e <;> decide
  by_cases hi : i < 32
  · have h1 := h ⟨i, hi⟩ ⟨e.code, by omega⟩
    have h2 := h ⟨i, hi⟩ ⟨8 + e.code, by omega⟩
    simp only at h1 h2
    simp only [recordEvent, BitVec.getLsbD_or, h1, h2]
  · have hn : ¬ i = e.code ∧ ¬ i = 8 + e.code := by omega
    rw [BitVec.getLsbD_of_ge _ i (Nat.le_of_not_lt hi), BitVec.getLsbD_of_ge _ i (Nat.le_of_not_lt hi)]
    simp [hn]

theorem getLsbD_clearSticky (v st : Word) (i : Nat) :
    (clearSticky v st).getLsbD i = (st.getLsbD i && !(v.getLsbD i && decide (8 ≤ i ∧ i < 12))) := by
  have h : ∀ j : Fin 32, (0x00000F00#32).getLsbD j = decide (8 ≤ j.val ∧ j.val < 12) := by decide
  by_cases hi : i < 32
  · have hm := h ⟨i, hi⟩
    simp only at hm
    rw [clearSticky, BitVec.getLsbD_and, BitVec.getLsbD_not, BitVec.getLsbD_and, hm, decide_eq_true hi, Bool.true_and]
  · rw [BitVec.getLsbD_of_ge _ i (Nat.le_of_not_lt hi), BitVec.getLsbD_of_ge _ i (Nat.le_of_not_lt hi), Bool.false_and]

theorem getLsbD_writeEnables (v c : Word) (i : Nat) :
    (writeEnables v c).getLsbD i = if i < 4 then v.getLsbD i else c.getLsbD i := by
  have h1 : ∀ j : Fin 32, (0xFFFFFFF0#32).getLsbD j = decide (4 ≤ j.val) := by decide
  have h2 : ∀ j : Fin 32, (0x0000000F#32).getLsbD j = decide (j.val < 4) := by decide
  by_cases hi : i < 32
  · have a := h1 ⟨i, hi⟩
    have b := h2 ⟨i, hi⟩
    simp only at a b
    rw [writeEnables, BitVec.getLsbD_or, BitVec.getLsbD_and, BitVec.getLsbD_and, a, b]
    by_cases h4 : i < 4
    · simp [h4]
    · simp [h4, Nat.le_of_not_lt h4]
  · have h4 : ¬ i < 4 := by omega
    rw [if_neg h4, BitVec.getLsbD_of_ge _ i (Nat.le_of_not_lt hi), BitVec.getLsbD_of_ge _ i (Nat.le_of_not_lt hi)]

end Sys2Proof.Machine
end

