-- ==== Sys2Proof/Laws/Ops.lean ====
section
/-! SUPPORT. What each shared operation and each step can do, said once. -/

namespace Sys2Proof.Machine

/-- The STATUS word a command leaves, given the event it raised. -/
def statusAfter (e : Option Event) (st : Word) : Word :=
  match e with
  | none => clearEventBits st
  | some e => recordEvent e (clearEventBits st)

theorem Event.code_lt (e : Event) : e.code < 4 := by cases e <;> decide

/-- Bit j of the STATUS word a command leaves: a kept bit above 3, or one of the event's two bits. -/
theorem getLsbD_statusAfter (e : Option Event) (st : Word) (j : Nat) :
    (statusAfter e st).getLsbD j = ((decide (4 ≤ j) && st.getLsbD j) ||
      (match e with
        | none => false
        | some e => decide (j = e.code) || decide (j = 8 + e.code))) := by
  cases e with
  | none => simp [statusAfter, getLsbD_clearEventBits]
  | some e => simp only [statusAfter, getLsbD_recordEvent, getLsbD_clearEventBits, Bool.or_assoc]

/-- After a command, the per-command bit of an event is 1 exactly when the command raised that event. -/
theorem eventBit_statusAfter_iff (e : Option Event) (st : Word) (ev : Event) :
    (statusAfter e st).getLsbD ev.code = true ↔ e = some ev := by
  have h := ev.code_lt
  have h4 : ¬ 4 ≤ ev.code := by omega
  rw [getLsbD_statusAfter]
  cases e with
  | none => simp [h4]
  | some e => cases e <;> cases ev <;> simp [Event.code]

theorem getLsbD_eventBits (s : State) (i : Nat) : s.eventBits.getLsbD i = (decide (i < 4) && s.status.getLsbD i) := by
  simp [State.eventBits]

theorem getLsbD_stickyBits (s : State) (i : Nat) :
    s.stickyBits.getLsbD i = (decide (i < 4) && s.status.getLsbD (8 + i)) := by
  simp [State.stickyBits]

/-- A completed command writes RESULT and STATUS and nothing else. -/
theorem completeCommand_eq (out : Word × Option Event) (s : State) :
    completeCommand out s = .next { s with result := out.1, status := statusAfter out.2 s.status } := by
  obtain ⟨r, _ | e⟩ := out <;> rfl

/-- An illegal word writes STATUS and nothing else. -/
theorem illegalCommand_eq (s : State) :
    illegalCommand s = .next { s with status := statusAfter (some .illegalCommand) s.status } := rfl

/-- The result word and the event of a command, as a function of the operands and RTAB alone. -/
def outcome (i : Instr) (table : Nat → Word) (a b : Word) : Word × Option Event :=
  match i with
  | .mul => mulF a b
  | .div => divF a b
  | .recip => recipF table b
  | .adiv => adivF table a b
  | .mod => modF a b

/-- Every command always completes, with its outcome written back. -/
theorem exec_eq (i : Instr) (s : State) :
    exec i s = .next { s with result := (outcome i (rtabAt s) s.opa s.opb).1,
                              status := statusAfter (outcome i (rtabAt s) s.opa s.opb).2 s.status } := by
  cases i <;> exact completeCommand_eq _ s

/-- Execute of any word completes; it changes RESULT and STATUS at most. -/
theorem execute_cases (c : Word) (s : State) :
    (∃ i, decode c = .ok i ∧ execute c s = exec i s) ∨
    (∃ r, decode c = .error r ∧ execute c s = illegalCommand s) := by
  unfold execute
  cases h : decode c with
  | ok i => exact .inl ⟨i, rfl, rfl⟩
  | error r => exact .inr ⟨r, rfl, rfl⟩

/-- What Execute may change. -/
theorem execute_next (c : Word) (s : State) :
    ∃ r st, execute c s = .next { s with result := r, status := st } := by
  obtain ⟨i, -, h⟩ | ⟨_, -, h⟩ := execute_cases c s
  · exact ⟨_, _, h.trans (exec_eq i s)⟩
  · exact ⟨s.result, _, h.trans (illegalCommand_eq s)⟩

/-- A write always completes: into OPA, OPB or CTRL, sticky bits of STATUS cleared, a command performed, or nothing. -/
theorem busWrite_cases (off : Nat) (v : Word) (s : State) :
    (off = 0x00 ∧ busWrite off v s = .next (s.setOpa v)) ∨
    (off = 0x04 ∧ busWrite off v s = .next (s.setOpb v)) ∨
    (off = 0x08 ∧ busWrite off v s = execute v (s.setCmd v)) ∨
    (off = 0x10 ∧ busWrite off v s = .next (s.setStatus (clearSticky v s.status))) ∨
    (off = 0x14 ∧ busWrite off v s = .next (s.setCtrl (writeEnables v s.ctrl))) ∨
    ((off ≠ 0x00 ∧ off ≠ 0x04 ∧ off ≠ 0x08 ∧ off ≠ 0x10 ∧ off ≠ 0x14) ∧ busWrite off v s = .next s) := by
  by_cases h0 : off = 0x00
  · subst h0; exact .inl ⟨rfl, rfl⟩
  by_cases h1 : off = 0x04
  · subst h1; exact .inr (.inl ⟨rfl, rfl⟩)
  by_cases h2 : off = 0x08
  · subst h2; exact .inr (.inr (.inl ⟨rfl, rfl⟩))
  by_cases h3 : off = 0x10
  · subst h3; exact .inr (.inr (.inr (.inl ⟨rfl, rfl⟩)))
  by_cases h4 : off = 0x14
  · subst h4; exact .inr (.inr (.inr (.inr (.inl ⟨rfl, rfl⟩))))
  refine .inr (.inr (.inr (.inr (.inr ⟨⟨h0, h1, h2, h3, h4⟩, ?_⟩))))
  by_cases h5 : off = 0x0C
  · subst h5; rfl
  by_cases h6 : off = 0x18
  · subst h6; rfl
  have hr : regAt off = .reserved := by
    unfold regAt
    split <;> first | rfl | contradiction
  simp [busWrite, hr]

/-- What a write may not change: what waits at the port, the reset line, the answer already given, and RTAB. -/
theorem busWrite_next (off : Nat) (v : Word) (s : State) :
    ∃ t, busWrite off v s = .next t ∧ t.inputs = s.inputs ∧ t.inReset = s.inReset ∧ t.response = s.response ∧
      t.rtab = s.rtab := by
  obtain ⟨_, h⟩ | ⟨_, h⟩ | ⟨_, h⟩ | ⟨_, h⟩ | ⟨_, h⟩ | ⟨_, h⟩ := busWrite_cases off v s
  · exact ⟨_, h, rfl, rfl, rfl, rfl⟩
  · exact ⟨_, h, rfl, rfl, rfl, rfl⟩
  · obtain ⟨r, st, h'⟩ := execute_next v (s.setCmd v)
    exact ⟨_, h.trans h', rfl, rfl, rfl, rfl⟩
  · exact ⟨_, h, rfl, rfl, rfl, rfl⟩
  · exact ⟨_, h, rfl, rfl, rfl, rfl⟩
  · exact ⟨_, h, rfl, rfl, rfl, rfl⟩

/-- Everything one step can do. -/
theorem step_cases (s : State) :
    (s.inputs = [] ∧ step s = .next s) ∨
    (∃ b rest, s.inputs = .resetLine b :: rest ∧ step s = .next (driveReset b (s.setInputs rest))) ∨
    (∃ a rest, s.inputs = .access a :: rest ∧ a.inWindow = false ∧ step s = .fault .outsideWindow) ∨
    (∃ a rest, s.inputs = .access a :: rest ∧ a.inWindow = true ∧ s.inReset = true ∧
      step s = .refused .accessDuringReset) ∨
    (∃ a rest, s.inputs = .access a :: rest ∧ a.inWindow = true ∧ s.inReset = false ∧
      step s = performAccess a (s.setInputs rest)) := by
  unfold step performNext
  cases hi : s.inputs with
  | nil => exact .inl ⟨rfl, rfl⟩
  | cons i rest =>
    cases i with
    | resetLine b => exact .inr (.inl ⟨b, rest, rfl, rfl⟩)
    | access a =>
      cases hw : a.inWindow with
      | false => exact .inr (.inr (.inl ⟨a, rest, rfl, hw, by simp [performInput, hw]⟩))
      | true =>
        cases hr : s.inReset with
        | true => exact .inr (.inr (.inr (.inl ⟨a, rest, rfl, hw, rfl, by simp [performInput, hw, hr]⟩)))
        | false => exact .inr (.inr (.inr (.inr ⟨a, rest, rfl, hw, rfl, by simp [performInput, hw, hr]⟩)))

/-- Everything an access can do once it has reached the FXU. -/
theorem performAccess_cases (a : Access) (s : State) :
    (a.kind = .fetch ∧ performAccess a s = .refused .fetchFromWindow) ∨
    (a.kind ≠ .fetch ∧ a.accepted = false ∧ performAccess a s = .next (s.respond .busError)) ∨
    (a.kind = .read ∧ a.accepted = true ∧ performAccess a s = .next (s.respond (.data (busRead a.off s)))) ∨
    (∃ v, a.kind = .write v ∧ a.accepted = true ∧ performAccess a s = busWrite a.off v (s.respond .written)) := by
  obtain ⟨k, off, size⟩ := a
  cases k with
  | fetch => exact .inl ⟨rfl, rfl⟩
  | read =>
    cases h : Access.accepted ⟨.read, off, size⟩ with
    | false => exact .inr (.inl ⟨by simp, rfl, by simp [performAccess, h]⟩)
    | true => exact .inr (.inr (.inl ⟨rfl, rfl, by simp [performAccess, h]⟩))
  | write v =>
    cases h : Access.accepted ⟨.write v, off, size⟩ with
    | false => exact .inr (.inl ⟨by simp, rfl, by simp [performAccess, h]⟩)
    | true => exact .inr (.inr (.inr ⟨v, rfl, rfl, by simp [performAccess, h]⟩))

/-- An access that is inside the window, outside reset, is the whole step. -/
theorem step_access {s : State} {a : Access} {rest : List Input} (hr : s.inReset = false)
    (hi : s.inputs = .access a :: rest) (hw : a.off < 64) : step s = performAccess a (s.setInputs rest) := by
  simp [step, performNext, hi, performInput, Access.inWindow, hw, hr]

/-- A step on an accepted write. -/
theorem step_write {s : State} {off : Nat} {v : Word} {rest : List Input} (hr : s.inReset = false)
    (h4 : off % 4 = 0) (hl : off ≤ 0x3C) (hi : s.inputs = .access ⟨.write v, off, 4⟩ :: rest) :
    step s = busWrite off v { s with inputs := rest, response := some .written } := by
  rw [step_access hr hi (by simp only; omega)]
  simp only [performAccess, Access.accepted, h4, hl, decide_true, Bool.and_true, if_true]
  rfl

/-- A step on an accepted read. -/
theorem step_read {s : State} {off : Nat} {rest : List Input} (hr : s.inReset = false)
    (h4 : off % 4 = 0) (hl : off ≤ 0x3C) (hi : s.inputs = .access ⟨.read, off, 4⟩ :: rest) :
    step s = .next { s with inputs := rest, response := some (.data (busRead off { s with inputs := rest })) } := by
  rw [step_access hr hi (by simp only; omega)]
  simp only [performAccess, Access.accepted, h4, hl, decide_true, Bool.and_true, if_true]
  rfl

/-- A completed step that does not take the reset line changes the port alone, or performs an accepted write. -/
theorem step_next_cases {s t : State} (h : step s = .next t) (hn : ∀ b rest, s.inputs ≠ .resetLine b :: rest) :
    (∃ r l, t = { s with inputs := l, response := r }) ∨
    (∃ off v rest, s.inputs = .access ⟨.write v, off, 4⟩ :: rest ∧ off % 4 = 0 ∧ off ≤ 0x3C ∧ s.inReset = false ∧
      busWrite off v { s with inputs := rest, response := some .written } = .next t) := by
  obtain ⟨_, h'⟩ | ⟨b, rest, hi, h'⟩ | ⟨a, rest, hi, hw, h'⟩ | ⟨a, rest, hi, hw, hr, h'⟩ | ⟨a, rest, hi, hw, hr, h'⟩ :=
    step_cases s
  · rw [h'] at h; cases h; exact .inl ⟨_, _, rfl⟩
  · exact absurd hi (hn b rest)
  · rw [h'] at h; cases h
  · rw [h'] at h; cases h
  · obtain ⟨_, h2⟩ | ⟨_, _, h2⟩ | ⟨_, _, h2⟩ | ⟨v, hk, ha, h2⟩ := performAccess_cases a (s.setInputs rest)
    · rw [h', h2] at h; cases h
    · rw [h', h2] at h; cases h; exact .inl ⟨_, _, rfl⟩
    · rw [h', h2] at h; cases h; exact .inl ⟨_, _, rfl⟩
    · obtain ⟨k, off, size⟩ := a
      simp only [Access.accepted, Bool.and_eq_true, decide_eq_true_eq] at ha
      simp only at hk
      obtain ⟨⟨rfl, h4⟩, hl⟩ := ha
      subst hk
      exact .inr ⟨off, v, rest, hi, h4, hl, hr, (step_write hr h4 hl hi).symm.trans h⟩

end Sys2Proof.Machine
end

