-- ==== Sys2Proof/Laws/Arithmetic.lean ====
section
/-! SUPPORT. The operations' arithmetic: magnitudes, what range reduction leaves, and each operation's function by cases. -/

namespace Sys2Proof.Machine

theorem mag_le (w : Word) : mag w ≤ 2 ^ 31 := by
  have h1 := BitVec.toInt_lt (x := w)
  have h2 := BitVec.le_toInt (x := w)
  simp only [mag, s32]
  omega

theorem mag_eq_zero {w : Word} : mag w = 0 ↔ w = 0#32 := by
  constructor
  · intro h
    have h0 : w.toInt = 0 := Int.natAbs_eq_zero.mp h
    exact BitVec.eq_of_toInt_eq (by simpa using h0)
  · rintro rfl
    decide

theorem signBit_eq (w : Word) : signBit w = decide (s32 w < 0) := by
  have h := BitVec.msb_eq_toInt (x := w)
  rw [← h, BitVec.msb_eq_getLsbD_last]
  rfl

theorem mulF_fst (a b : Word) : (mulF a b).1 = u32 (mulQuotient a b) := rfl

/-- DIVf under the guard. -/
theorem divF_guard {a b : Word} (h : divGuard a b = true) : divF a b = (saturatedQuotient a b, some .saturated) := by
  simp [divF, h]

/-- DIVf without the guard. -/
theorem divF_no_guard {a b : Word} (h : divGuard a b = false) :
    divF a b = (u32 (tdiv (s32 a * 2 ^ 16) (s32 b)), none) := by
  simp [divF, h]

/-- The guard always holds for a zero divisor. -/
theorem divGuard_zero (a : Word) : divGuard a 0#32 = true := by
  simp [divGuard, mag]

/-- Range reduction, started at any count, halves until the magnitude is in the table's domain or its turns run out. -/
theorem reduceLoop_spec (fuel m s : Nat) :
    ∃ k, k ≤ fuel ∧ reduceLoop fuel m s = (m / 2 ^ k, s + k) ∧ (∀ j, j < k → 65536 < m / 2 ^ j) ∧
      (m < 2 ^ (17 + fuel) → m / 2 ^ k ≤ 65536 ∨ k = fuel) := by
  induction fuel generalizing m s with
  | zero => exact ⟨0, le_refl _, by simp [reduceLoop], by intro j hj; omega, fun _ => .inr rfl⟩
  | succ n ih =>
    by_cases h : Config.scale < m
    · obtain ⟨k, hk, he, hj, hb⟩ := ih (m / 2) (s + 1)
      refine ⟨k + 1, by omega, ?_, ?_, ?_⟩
      · have hl : lsr m 1 = m / 2 := by simp [lsr]
        rw [reduceLoop, if_pos h, hl, he, Nat.div_div_eq_div_mul, ← Nat.pow_succ']
        congr 1
        omega
      · intro j hjk
        cases j with
        | zero => simpa using h
        | succ j =>
          have := hj j (by omega)
          rwa [Nat.div_div_eq_div_mul, ← Nat.pow_succ'] at this
      · intro hm
        have : m / 2 < 2 ^ (17 + n) := by
          have : 2 ^ (17 + (n + 1)) = 2 * 2 ^ (17 + n) := by ring
          omega
        obtain h' | h' := hb this
        · rw [Nat.div_div_eq_div_mul, ← Nat.pow_succ'] at h'
          exact .inl h'
        · exact .inr (by omega)
    · refine ⟨0, Nat.zero_le _, by simp [reduceLoop, h], by intro j hj; omega, fun _ => .inl ?_⟩
      simpa using Nat.le_of_not_lt h

/-- Range reduction of a magnitude ends inside the table's domain, after the least number of halvings that does. -/
theorem rangeReduce_spec {m0 : Nat} (h : m0 ≤ 2 ^ 31) :
    ∃ k, k ≤ 15 ∧ rangeReduce m0 = (m0 / 2 ^ k, k) ∧ m0 / 2 ^ k ≤ 65536 ∧ ∀ j, j < k → 65536 < m0 / 2 ^ j := by
  obtain ⟨k, hk, he, hj, hb⟩ := reduceLoop_spec maxHalvings m0 0
  refine ⟨k, hk, by simpa [rangeReduce] using he, ?_, hj⟩
  have hf : maxHalvings = 15 := rfl
  obtain h' | h' := hb (by rw [hf]; omega)
  · exact h'
  · rw [h', hf]
    omega

/-- RECIPf at zero. -/
@[simp] theorem recipF_zero (table : Nat → Word) : recipF table 0#32 = (0#32, some .domainError) := by
  simp [recipF]

/-- RECIPf at a nonzero argument raises nothing. -/
theorem recipF_nonzero (table : Nat → Word) {v : Word} (h : v ≠ 0#32) :
    recipF table v = (restoreSign v (table (rangeReduce (mag v)).1 >>> (rangeReduce (mag v)).2), none) := by
  simp [recipF, h]

/-- ADIVf at a zero divisor. -/
@[simp] theorem adivF_zero (table : Nat → Word) (a : Word) : adivF table a 0#32 = (0#32, some .domainError) := by
  simp [adivF]

/-- ADIVf at a nonzero divisor is MULf of the dividend and the reciprocal. -/
theorem adivF_nonzero (table : Nat → Word) (a : Word) {b : Word} (h : b ≠ 0#32) :
    adivF table a b = mulF a (recipF table b).1 := by
  simp [adivF, recipF_nonzero table h]

/-- MODf at a zero modulus. -/
@[simp] theorem modF_zero (a : Word) : modF a 0#32 = (0#32, some .domainError) := by
  simp [modF]

/-- The mask of the fast path is one less than the modulus, in word arithmetic. -/
theorem modMask_eq (b : Word) : modMask b = b - 1#32 := by
  apply BitVec.eq_of_toInt_eq
  rw [modMask, u32, s32, BitVec.toInt_ofInt, BitVec.toInt_sub]
  rfl

/-- The fast path's test on words (R151). -/
theorem fastPath_iff_and_pred (b : Word) : fastPath b = true ↔ b &&& (b - 1#32) = 0#32 := by
  simp [fastPath, modMask_eq]

/-- The truncated remainder is Lean's. -/
theorem trem_eq (n d : Int) : trem n d = Int.tmod n d := by
  simp [trem, tdiv, Int.tmod_def]

end Sys2Proof.Machine
end

