-- ==== Sys2Proof/Laws/Config.lean ====
section
/-! SUPPORT. What is known of the reciprocal table's parameter: its contract, and nothing else. -/

namespace Sys2Proof.Config

theorem and_maxF_le (w : Word) : (w &&& maxF).toNat ≤ 2 ^ 31 - 1 := by
  rw [BitVec.toNat_and]
  exact Nat.and_le_right

theorem boundedTable_succ_le (raw : Nat → Word) {i : Nat} (h : 1 ≤ i) :
    (boundedTable raw (i + 1)).toNat ≤ (boundedTable raw i).toNat := by
  obtain ⟨k, rfl⟩ : ∃ k, i = k + 1 := ⟨i - 1, by omega⟩
  show (boundedTable raw (k + 2)).toNat ≤ _
  rw [boundedTable]
  split <;> omega

theorem boundedTable_add_le (raw : Nat → Word) {i : Nat} (h : 1 ≤ i) (d : Nat) :
    (boundedTable raw (i + d)).toNat ≤ (boundedTable raw i).toNat := by
  induction d with
  | zero => exact le_refl _
  | succ d ih => exact le_trans (boundedTable_succ_le raw (Nat.le_add_right_of_le h)) ih

/-- What is made of any raw function meets the contract. -/
theorem boundedTable_contract (raw : Nat → Word) : RtabContract (boundedTable raw) where
  antitone i j h1 h2 _ := by
    have h := boundedTable_add_le raw h1 (j - i)
    rwa [show i + (j - i) = j by omega] at h
  bounded i h1 _ := by
    have h := boundedTable_add_le raw (le_refl 1) (i - 1)
    rw [show 1 + (i - 1) = i by omega] at h
    exact le_trans h (and_maxF_le _)

/-- The parameter meets the contract. -/
theorem rtab_contract : RtabContract rtab := boundedTable_contract rtabRaw

end Sys2Proof.Config
end

