-- ==== Sys2Proof/Laws/PerInstr.lean ====
section
/-! SUPPORT. Statements about every command as syntax, one lemma per constructor. -/

namespace Sys2Proof.Laws.Encoding

/-- A command's word and its four bytes decode to it, and its fields are the legal ones of R71. -/
def Statement (i : Instr) : Prop :=
  decode (encode i) = .ok i ∧ decodeBytes (encodeBytes i) = .ok i ∧ (fieldsOf (encode i)).wf = true ∧ i.wf = true

theorem mul : Statement .mul := by unfold Statement; decide
theorem div : Statement .div := by unfold Statement; decide
theorem recip : Statement .recip := by unfold Statement; decide
theorem adiv : Statement .adiv := by unfold Statement; decide
theorem mod : Statement .mod := by unfold Statement; decide

end Sys2Proof.Laws.Encoding
end

