-- ==== Sys2Proof/Tests/Slice0.lean ====
section
/-! SUPPORT. Small tests, and for every statement with hypotheses a state that meets them. Expected values come from
spec/95_test_vectors.md (the row is named), from the rule named, or from the encoding of spec/30_encoding.md. -/

namespace Sys2Proof.Tests

open Sys2Proof Sys2Proof.Machine

/-! ### Helpers -/

/-- The reset state with the given operands. -/
def operands (a b : Word) : State := { State.reset with opa := a, opb := b }

/-- The reset state with the given operands and these entries of the reference table (R122) as its RTAB. -/
def withRef (a b : Word) (entries : List Nat) : State :=
  { operands a b with rtab := entries.map (fun i => (i, Config.rtabRef i)) }

/-- The reset state with these inputs at its port. -/
def port (l : List Input) : State := { State.reset with inputs := l }

def wr (off : Nat) (v : Word) : Input := .access ⟨.write v, off, 4⟩
def rd (off : Nat) : Input := .access ⟨.read, off, 4⟩

/-- One view of the next state; `none` where there is none. -/
def after {α : Type} (f : State → α) : Host.Outcome State Fault Refusal → Option α
  | .next s => some (f s)
  | .fault _ => none
  | .refused _ => none

def resultStatus (s : State) : Word × Word := (s.result, s.status)

/-! ### Words and fields -/

-- Each word is written out from R71 and R73: 29 zeros of RSV, then OP.
theorem test_decode_mul : decode 0b00000000000000000000000000000000#32 = .ok .mul := by decide
theorem test_decode_div : decode 0b00000000000000000000000000000001#32 = .ok .div := by decide
theorem test_decode_recip : decode 0b00000000000000000000000000000010#32 = .ok .recip := by decide
theorem test_decode_adiv : decode 0b00000000000000000000000000000011#32 = .ok .adiv := by decide
theorem test_decode_mod : decode 0b00000000000000000000000000000100#32 = .ok .mod := by decide
-- E2, E3, E5: a reserved bit, with a legal OP below it, and a reserved OP.
theorem test_decode_reserved_bit : decode 0x00000008#32 = .error .reservedBits := by decide
theorem test_decode_top_bit : decode 0x80000001#32 = .error .reservedBits := by decide
theorem test_decode_reserved_operation : decode 0x00000006#32 = .error .reservedOperation := by decide
-- R56: lane 0 is the lowest address.
theorem test_decode_bytes : decodeBytes [0x04#8, 0x00#8, 0x00#8, 0x00#8] = .ok .mod := by decide
theorem test_decode_bytes_swapped : decodeBytes [0x00#8, 0x00#8, 0x00#8, 0x04#8] = .error .reservedBits := by decide
theorem test_decode_short : decodeBytes [0x01#8, 0x00#8] = .error .wrongLength := by decide
theorem test_table_words :
    [0, 1, 2, 3, 4, 5].map (decodeTableWord 32) =
      [some .mul, some .div, some .recip, some .adiv, some .mod, none] := by decide

-- WellFormed: one ill-formed term for each check, and a term that passes both.
theorem test_rsv_refused : CommandFields.wf ⟨1#29, 0b000#3⟩ = false := by decide
theorem test_op_refused : CommandFields.wf ⟨0#29, 0b101#3⟩ = false := by decide
theorem test_fields_accepted : CommandFields.wf ⟨0#29, 0b100#3⟩ = true := by decide

/-! ### Commands -/

-- MU5: overflow wraps and is flagged; MU16: floor rounding of a negative product.
theorem test_mul_wraps : after resultStatus (exec .mul (operands 0x80000000#32 0xFFFF0000#32)) =
    some (0x80000000#32, 0x00000808#32) := by decide
theorem test_mul_floors : after resultStatus (exec .mul (operands 0xFFFFFFFF#32 0x00008000#32)) =
    some (0xFFFFFFFF#32, 0x00000000#32) := by decide
-- DI11: the guard at equality on the most negative dividend; DI16: truncation toward zero.
theorem test_div_guard_edge : after resultStatus (exec .div (operands 0x80000000#32 0x00020000#32)) =
    some (0x80000000#32, 0x00000101#32) := by decide
theorem test_div_truncates : after resultStatus (exec .div (operands 0xFFFF0000#32 0x00030000#32)) =
    some (0xFFFFAAAB#32, 0x00000000#32) := by decide
-- RE10: fifteen halvings and a negative argument; RE17: a reduced index that is not a power of two.
theorem test_recip_most_negative : after resultStatus (exec .recip (withRef 0#32 0x80000000#32 [65536])) =
    some (0xFFFFFFFE#32, 0x00000000#32) := by decide
theorem test_recip_reduces : after resultStatus (exec .recip (withRef 7#32 0x0001FFFF#32 [65535])) =
    some (0x00008000#32, 0x00000000#32) := by decide
-- AD12: the approximation, unlike DIV's 0x008EDB6D; AD10: the multiply step overflows.
theorem test_adiv_approximates : after resultStatus (exec .adiv (withRef 0x03E80000#32 0x00070000#32 [57344])) =
    some (0x008EDA50#32, 0x00000000#32) := by decide
theorem test_adiv_overflows : after resultStatus (exec .adiv (withRef 0x7FFFFFFF#32 0x00008000#32 [32768])) =
    some (0xFFFFFFFE#32, 0x00000808#32) := by decide
-- MO7: a negative modulus adds its magnitude; MO12: the one negative power of two.
theorem test_mod_negative_modulus : after resultStatus (exec .mod (operands 0xFFFFFFFF#32 0xFFFFFFFC#32)) =
    some (0x00000003#32, 0x00000000#32) := by decide
theorem test_mod_fast_path_min : after resultStatus (exec .mod (operands 0xFFFFFFFF#32 0x80000000#32)) =
    some (0x7FFFFFFF#32, 0x00000000#32) := by decide

/-! ### Port, reset and notation -/

-- E12: write-one-to-clear.
theorem test_status_write : after State.status (step { port [wr 0x10 0x00000200#32] with status := 0x00000B01#32 }) =
    some 0x00000901#32 := by decide
-- E13: a domain error with its enable set raises irq.
theorem test_irq_rises :
    after (fun s => (s.status, s.irq)) (step { port [wr 0x08 0x00000002#32] with ctrl := 0x00000002#32 }) =
      some (0x00000202#32, true) := by decide
-- E9: only bits 3:0 of CTRL are written.
theorem test_ctrl_write : after State.ctrl (step (port [wr 0x14 0xFFFFFFFF#32])) = some 0x0000000F#32 := by decide
-- E1: an illegal word keeps RESULT and is kept in CMD.
theorem test_illegal_word :
    after (fun s => (s.cmd, s.result, s.status)) (step { port [wr 0x08 0x00000005#32] with result := 0x00060000#32 }) =
      some (0x00000005#32, 0x00060000#32, 0x00000404#32) := by decide
-- E14: a byte write to CMD.
theorem test_byte_write : after (fun s => (s.cmd, s.status, s.response)) (step (port [.access ⟨.write 4#32, 0x08, 1⟩])) =
    some (0x00000000#32, 0x00000000#32, some .busError) := by decide
-- E7: INFO.
theorem test_info_read : after State.response (step (port [rd 0x18])) = some (some (.data 0x00012010#32)) := by decide
-- R190: release of reset.
theorem test_reset_release :
    after (fun s => (s.opa, s.inReset)) (step { port [.resetLine false] with opa := 7#32, inReset := true }) =
      some (0x00000000#32, false) := by decide
-- The next step after withFetchWord runs the row's command, from reset and from inside a reset.
theorem test_fetch_word : step (State.reset.withFetchWord 32 2) =
    exec .recip { State.reset with cmd := 0x00000002#32, response := some .written } := rfl
theorem test_fetch_word_in_reset : after State.cmd (step ({ State.reset with inReset := true }.withFetchWord 32 4)) =
    some 0x00000004#32 := by decide
-- R79's examples, and a literal that would need rounding.
theorem test_literals : [qLiteral 1 0, qLiteral 35 1, qLiteral (-1) 0, qLiteral (-25) 2, qLiteral 1 1, qLiteral 32768 0] =
    [some 0x00010000#32, some 0x00038000#32, some 0xFFFF0000#32, some 0xFFFFC000#32, none, none] := by decide
-- R78.
theorem test_pseudo_expansion : Pseudo.expand (.fxRecip 0x00080000#32) =
    [.wr 0x04 0x00080000#32, .wr 0x08 0x00000002#32, .rd 0x0C] := by decide
-- R122's selected entries.
theorem test_reference_entries : [2, 3, 40000, 65535, 65536].map Config.rtabRef =
    [0x7FFFFFFF#32, 0x55555555#32, 0x0001A36E#32, 0x00010001#32, 0x00010000#32] := by decide
theorem test_rtab_listed : rtabListed [(3, 0#32), (65536, 0#32)] = true ∧ rtabListed [(3, 0#32), (3, 0#32)] = false ∧
    rtabListed [(65537, 0#32)] = false := by decide

/-! ### Witnesses: a state and operands that meet a statement's hypotheses together, clause by clause -/

theorem witness_StepRunsDecodedCommand : ∃ (s : State) (w : Word) (i : Instr) (rest : List Input), s.inReset = false ∧
    s.inputs = .access ⟨.write w, 0x08, 4⟩ :: rest ∧ decode w = .ok i :=
  ⟨port [wr 0x08 4#32, rd 0x0C], 4#32, .mod, [rd 0x0C], rfl, rfl, by decide⟩

theorem witness_IllegalWordRecordsIllegalCommand : ∃ (s : State) (w : Word) (rest : List Input), s.inReset = false ∧
    s.inputs = .access ⟨.write w, 0x08, 4⟩ :: rest ∧ 4 < w.toNat :=
  ⟨port [wr 0x08 5#32], 5#32, [], rfl, rfl, by decide⟩

-- For CommandFrame and EventsOfEachCommand: every command, on every state, gives a next state.
theorem witness_CommandFrame : ∀ i : Instr, ∃ t, exec i (operands 1#32 0#32) = .next t := fun i => ⟨_, exec_eq i _⟩

-- Two states that differ in RESULT, CTRL and the never-read entry 0 of RTAB.
theorem witness_OutcomeDependsOnOperandsAlone : ∃ (i : Instr) (s s' t t' : State), s'.opa = s.opa ∧ s'.opb = s.opb ∧
    (∀ j, 1 ≤ j → j ≤ 65536 → rtabAt s' j = rtabAt s j) ∧ exec i s = .next t ∧ exec i s' = .next t' ∧ s'.ctrl ≠ s.ctrl :=
  ⟨.recip, operands 1#32 3#32, { operands 1#32 3#32 with ctrl := 2#32, rtab := [(0, 5#32)] }, _, _, rfl, rfl,
    fun j h _ => by
      have h0 : (0 == j) = false := by simp; omega
      simp [rtabAt, operands, h0],
    rfl, rfl, by decide⟩

theorem witness_MulRoundsDown : ∃ s t : State, exec .mul s = .next t ∧ t.status.getLsbD 3 = false :=
  ⟨operands 0xFFFFFFFF#32 0x00008000#32, _, rfl, by decide⟩

theorem witness_MulLaws_identity : ∃ s : State, s.opa = 0x80000000#32 ∧ s.opb = 0x00010000#32 :=
  ⟨operands 0x80000000#32 0x00010000#32, rfl, rfl⟩
theorem witness_MulLaws_zero : ∃ s : State, s.opa = 0x80000000#32 ∧ s.opb = 0x00000000#32 :=
  ⟨operands 0x80000000#32 0#32, rfl, rfl⟩
theorem witness_MulLaws_operands : ∃ s t : State, exec .mul s = .next t := ⟨operands 1#32 2#32, _, rfl⟩

theorem witness_DivByZeroSaturates : ∃ s : State, s.opa = 0x80000000#32 ∧ s.opb = 0x00000000#32 :=
  ⟨operands 0x80000000#32 0#32, rfl, rfl⟩
theorem witness_DivOfZero_quotient : ∃ s : State, s.opa = 0x00000000#32 ∧ s.opb ≠ 0x00000000#32 :=
  ⟨operands 0#32 1#32, rfl, by decide⟩
theorem witness_DivOfZero_pinned : ∃ s : State, s.opa = 0x00000000#32 ∧ s.opb = 0x00000000#32 :=
  ⟨operands 0#32 0#32, rfl, rfl⟩

theorem witness_DivMostNegative_positive : ∃ s : State, s.opa = 0x80000000#32 ∧ 0 < s.opb.toInt ∧ s.opb.toInt ≤ 2 ^ 17 :=
  ⟨operands 0x80000000#32 0x00020000#32, rfl, by decide, by decide⟩
theorem witness_DivMostNegative_negative : ∃ s : State, s.opa = 0x80000000#32 ∧ -2 ^ 17 ≤ s.opb.toInt ∧ s.opb.toInt < 0 :=
  ⟨operands 0x80000000#32 0xFFFE0000#32, rfl, by decide, by decide⟩
theorem witness_DivMostNegative_both : ∃ s : State, s.opa = 0x80000000#32 ∧ s.opb = 0x80000000#32 :=
  ⟨operands 0x80000000#32 0x80000000#32, rfl, rfl⟩
theorem witness_DivMostNegative_divisor : ∃ s : State, s.opa = 0x7FFFFFFF#32 ∧ s.opb = 0x80000000#32 :=
  ⟨operands 0x7FFFFFFF#32 0x80000000#32, rfl, rfl⟩

-- The guard at equality, then just below it.
theorem witness_DivGuardIsConservative : ∃ s t : State, s.opb ≠ 0x00000000#32 ∧ exec .div s = .next t ∧
    t.status.getLsbD 0 = true :=
  ⟨operands 0x40000000#32 0x00010000#32, _, by decide, rfl, by decide⟩
theorem witness_DivNeverWraps : ∃ s t : State, exec .div s = .next t ∧ t.status.getLsbD 0 = false :=
  ⟨operands 0x3FFFFFFF#32 0x00010000#32, _, rfl, by decide⟩
theorem witness_DivSignSymmetric : ∃ s t : State, s.opa ≠ 0x80000000#32 ∧ s.opb ≠ 0x80000000#32 ∧
    exec .div s = .next t ∧ t.status.getLsbD 0 = false :=
  ⟨operands 0x80000001#32 0x00020000#32, _, by decide, by decide, rfl, by decide⟩

-- Both ends of RangeReductionClosedForm's range, and the first magnitude that takes fifteen halvings.
theorem witness_RangeReductionClosedForm : rangeReduce 1 = (1, 0) ∧ rangeReduce 65537 = (32768, 1) ∧
    rangeReduce (2 ^ 30 + 2 ^ 14) = (32768, 15) ∧ rangeReduce (2 ^ 31) = (65536, 15) := by decide

theorem witness_RecipLooksUpReducedMagnitude_zero : ∃ s : State, s.opb = 0x00000000#32 := ⟨operands 1#32 0#32, rfl⟩
theorem witness_RecipLooksUpReducedMagnitude_nonzero : ∃ s : State, s.opb ≠ 0x00000000#32 ∧ s.opb.toInt.natAbs = 2 ^ 31 :=
  ⟨operands 1#32 0x80000000#32, by decide, by decide⟩

theorem witness_RecipMonotoneBelowOne : ∃ s s' t t' : State, RtabGood s ∧ s'.rtab = s.rtab ∧ 0 < s.opb.toNat ∧
    s.opb.toNat < s'.opb.toNat ∧ s'.opb.toNat ≤ 65536 ∧ exec .recip s = .next t ∧ exec .recip s' = .next t' :=
  ⟨operands 0#32 65535#32, operands 0#32 65536#32, _, _, Config.rtab_contract, rfl, by decide, by decide, by decide, rfl, rfl⟩

theorem witness_RecipSignSymmetric : ∃ s t t' : State, s.opb ≠ 0x00000000#32 ∧ s.opb ≠ 0x80000000#32 ∧
    exec .recip s = .next t ∧ exec .recip { s with opb := -s.opb } = .next t' ∧ RtabGood s :=
  ⟨operands 0#32 0x7FFFFFFF#32, _, _, by decide, by decide, rfl, rfl, Config.rtab_contract⟩

theorem witness_ParameterCoversEveryContractTable : ∃ table : Nat → Word, Config.RtabContract table :=
  ⟨Config.rtab, Config.rtab_contract⟩

theorem witness_AdivMultipliesByReciprocal_zero : ∃ s : State, s.opb = 0x00000000#32 := ⟨operands 1#32 0#32, rfl⟩
theorem witness_AdivMultipliesByReciprocal_nonzero : ∃ s : State, s.opb ≠ 0x00000000#32 :=
  ⟨operands 1#32 0xFFFFFFFF#32, by decide⟩

theorem witness_ModIsEuclideanResidue : ∃ s t : State, s.opb ≠ 0x00000000#32 ∧ s.opb ≠ 0x80000000#32 ∧
    exec .mod s = .next t :=
  ⟨operands 0x80000000#32 0xFFFFFFFF#32, _, by decide, by decide, rfl⟩
theorem witness_ModIsEuclideanResidue_least : ∃ s t : State, s.opb = 0x80000000#32 ∧ exec .mod s = .next t :=
  ⟨operands 0xFFFFFFFF#32 0x80000000#32, _, rfl, rfl⟩
theorem witness_ModZeroOperands_modulus : ∃ s : State, s.opa = 0x00000000#32 ∧ s.opb = 0x00000000#32 :=
  ⟨operands 0#32 0#32, rfl, rfl⟩
theorem witness_ModZeroOperands_dividend : ∃ s : State, s.opa = 0x00000000#32 ∧ s.opb ≠ 0x00000000#32 :=
  ⟨operands 0#32 7#32, rfl, by decide⟩
/-- The test of the fast path on and beside its largest power of two. -/
theorem witness_ModFastPathIsPowersOfTwo_test :
    [0x7FFFFFFF#32, 0x80000000#32, 0x80000001#32].map fastPath = [false, true, false] := by decide
theorem witness_ModFastPathIsPowersOfTwo : ∃ (s : State) (k : Nat), k < 32 ∧ s.opb = 1#32 <<< k ∧ s.opb ≠ 0x00000000#32 :=
  ⟨operands 0x87654321#32 0x80000000#32, 31, by decide, by decide, by decide⟩

theorem witness_ReadReturnsRegister (off : Nat) (h : off = 0x00 ∨ off = 0x10 ∨ off = 0x18 ∨ off = 0x3C) :
    ∃ (s : State) (rest : List Input), s.inReset = false ∧ off % 4 = 0 ∧ off ≤ 0x3C ∧
      s.inputs = .access ⟨.read, off, 4⟩ :: rest :=
  ⟨port [rd off], [], rfl, by omega, by omega, rfl⟩
theorem witness_WriteChangesItsRegisterAlone (off : Nat)
    (h : off = 0x00 ∨ off = 0x04 ∨ off = 0x08 ∨ off = 0x0C ∨ off = 0x10 ∨ off = 0x14 ∨ off = 0x3C) :
    ∃ (s : State) (v : Word) (rest : List Input), s.inReset = false ∧ off % 4 = 0 ∧ off ≤ 0x3C ∧
      s.inputs = .access ⟨.write v, off, 4⟩ :: rest :=
  ⟨port [wr off 5#32], 5#32, [], rfl, by omega, by omega, rfl⟩

theorem witness_StickyBitsAccumulate : ∃ (s : State) (v : Word) (rest : List Input), s.inReset = false ∧
    s.inputs = .access ⟨.write v, 0x10, 4⟩ :: rest ∧ s.status.getLsbD 11 = true ∧ v.getLsbD 11 = true :=
  ⟨{ port [wr 0x10 0x800#32] with status := 0x00000808#32 }, 0x800#32, [], rfl, rfl, by decide, by decide⟩
theorem witness_StickyClearedOnlyByWriteOrReset : ∃ (s t : State), step s = .next t ∧
    s.status.getLsbD (8 + 3) = true ∧ t.status.getLsbD (8 + 3) = false :=
  ⟨{ port [wr 0x10 0x800#32] with status := 0x00000808#32 }, _, rfl, by decide, by decide⟩

theorem witness_ReadOnlyWritesIgnored (off : Nat) (h : off = 0x0C ∨ off = 0x18 ∨ off = 0x3C) :
    ∃ (s : State) (v : Word) (rest : List Input), s.inReset = false ∧ off % 4 = 0 ∧
      (off = 0x0C ∨ (0x18 ≤ off ∧ off ≤ 0x3C)) ∧ s.inputs = .access ⟨.write v, off, 4⟩ :: rest :=
  ⟨port [wr off 5#32], 5#32, [], rfl, by omega, by omega, rfl⟩
theorem witness_ReadOnlyWritesIgnored_status : ∃ (s : State) (v : Word) (rest : List Input), s.inReset = false ∧
    s.inputs = .access ⟨.write v, 0x10, 4⟩ :: rest :=
  ⟨port [wr 0x10 0xFFFFFFFF#32], 0xFFFFFFFF#32, [], rfl, rfl⟩
theorem witness_ReadOnlyWritesIgnored_ctrl : ∃ (s : State) (v : Word) (rest : List Input), s.inReset = false ∧
    s.inputs = .access ⟨.write v, 0x14, 4⟩ :: rest :=
  ⟨port [wr 0x14 0xFFFFFFFF#32], 0xFFFFFFFF#32, [], rfl, rfl⟩
theorem witness_ReadOnlyWritesIgnored_reserved (off : Nat) (h : off = 0x1C ∨ off = 0x3C) :
    ∃ (s : State) (rest : List Input), s.inReset = false ∧ off % 4 = 0 ∧ 0x1C ≤ off ∧ off ≤ 0x3C ∧
      s.inputs = .access ⟨.read, off, 4⟩ :: rest :=
  ⟨port [rd off], [], rfl, by omega, by omega, by omega, rfl⟩

-- A byte access, a misaligned word, and the last byte of the window.
theorem witness_UnacceptedAccessGetsBusError (a : Access)
    (h : a = ⟨.write 4#32, 0x08, 1⟩ ∨ a = ⟨.write 4#32, 0x0A, 4⟩ ∨ a = ⟨.read, 0x3F, 4⟩) :
    ∃ (s : State) (rest : List Input), s.inReset = false ∧ s.inputs = .access a :: rest ∧ a.off < 64 ∧ a.kind ≠ .fetch ∧
      (a.size ≠ 4 ∨ a.off % 4 ≠ 0) := by
  refine ⟨port [.access a], [], rfl, rfl, ?_⟩
  rcases h with rfl | rfl | rfl <;> decide

theorem witness_StepStopsByName_outside : ∃ (s : State) (a : Access) (rest : List Input), s.inputs = .access a :: rest ∧
    64 ≤ a.off :=
  ⟨port [rd 64], ⟨.read, 64, 4⟩, [], rfl, by decide⟩
theorem witness_StepStopsByName_reset : ∃ (s : State) (a : Access) (rest : List Input), s.inputs = .access a :: rest ∧
    a.off < 64 ∧ s.inReset = true :=
  ⟨{ port [rd 63] with inReset := true }, ⟨.read, 63, 4⟩, [], rfl, by decide, rfl⟩
theorem witness_StepStopsByName_fetch : ∃ (s : State) (a : Access) (rest : List Input), s.inputs = .access a :: rest ∧
    a.off < 64 ∧ s.inReset = false ∧ a.kind = .fetch :=
  ⟨port [.access ⟨.fetch, 0x3C, 4⟩], ⟨.fetch, 0x3C, 4⟩, [], rfl, by decide, rfl, rfl⟩

theorem witness_EveryAccessCompletes (a : Access) (h : a = ⟨.read, 0x3C, 4⟩ ∨ a = ⟨.read, 0x3D, 4⟩) :
    ∃ (s : State) (rest : List Input), s.inReset = false ∧ s.inputs = .access a :: rest ∧ a.off < 64 ∧ a.kind ≠ .fetch := by
  refine ⟨port [.access a], [], rfl, rfl, ?_⟩
  rcases h with rfl | rfl <;> decide

theorem witness_ReadsAfterCommandSeeItsOutcome_order : ∃ (s t : State) (x : Input) (rest : List Input),
    s.inputs = x :: rest ∧ step s = .next t :=
  ⟨port [wr 0x00 1#32, wr 0x04 2#32], _, wr 0x00 1#32, [wr 0x04 2#32], rfl, rfl⟩
theorem witness_ReadsAfterCommandSeeItsOutcome_read : ∃ (s : State) (i : Instr) (rest : List Input), s.inReset = false ∧
    s.inputs = .access ⟨.write (encode i), 0x08, 4⟩ :: .access ⟨.read, 0x0C, 4⟩ :: .access ⟨.read, 0x10, 4⟩ :: rest :=
  ⟨port [wr 0x08 (encode .div), rd 0x0C, rd 0x10], .div, [], rfl, rfl⟩
theorem witness_RepeatedWriteIsIdempotent (off : Nat) (h : off = 0x00 ∨ off = 0x08 ∨ off = 0x10 ∨ off = 0x3C) :
    ∃ (s : State) (v : Word) (rest : List Input), s.inReset = false ∧ off % 4 = 0 ∧ off ≤ 0x3C ∧
      s.inputs = .access ⟨.write v, off, 4⟩ :: .access ⟨.write v, off, 4⟩ :: rest :=
  ⟨port [wr off 5#32, wr off 5#32], 5#32, [], rfl, by omega, by omega, rfl⟩

-- RegistersChangeOnlyByTheirWrites: a step that changes each register, and none of them is the reset line's.
theorem witness_RegistersChangeOnlyByTheirWrites_opa : ∃ s t : State, step s = .next t ∧
    (∀ b rest, s.inputs ≠ .resetLine b :: rest) ∧ t.opa ≠ s.opa :=
  ⟨port [wr 0x00 1#32], _, rfl, (fun _ _ h => by simp [port, wr] at h), by decide⟩
theorem witness_RegistersChangeOnlyByTheirWrites_opb : ∃ s t : State, step s = .next t ∧
    (∀ b rest, s.inputs ≠ .resetLine b :: rest) ∧ t.opb ≠ s.opb :=
  ⟨port [wr 0x04 1#32], _, rfl, (fun _ _ h => by simp [port, wr] at h), by decide⟩
theorem witness_RegistersChangeOnlyByTheirWrites_command : ∃ s t : State, step s = .next t ∧
    (∀ b rest, s.inputs ≠ .resetLine b :: rest) ∧ t.cmd ≠ s.cmd ∧ t.result ≠ s.result ∧ t.status ≠ s.status :=
  ⟨port [wr 0x08 1#32], _, rfl, (fun _ _ h => by simp [port, wr] at h), by decide, by decide, by decide⟩
theorem witness_RegistersChangeOnlyByTheirWrites_ctrl : ∃ s t : State, step s = .next t ∧
    (∀ b rest, s.inputs ≠ .resetLine b :: rest) ∧ t.ctrl ≠ s.ctrl :=
  ⟨port [wr 0x14 1#32], _, rfl, (fun _ _ h => by simp [port, wr] at h), by decide⟩

theorem witness_ReissuedCommandRestoresOutcome : ∃ (i : Instr) (s t h : State) (rest : List Input), exec i s = .next t ∧
    h.rtab = t.rtab ∧ h.inReset = false ∧
    h.inputs = .access ⟨.write t.opa, 0x00, 4⟩ :: .access ⟨.write t.opb, 0x04, 4⟩ ::
      .access ⟨.write (encode i), 0x08, 4⟩ :: rest ∧ h.opb ≠ t.opb :=
  ⟨.mod, operands 0xFFF90000#32 0x00030000#32, _,
    { port [wr 0x00 0xFFF90000#32, wr 0x04 0x00030000#32, wr 0x08 4#32] with opb := 0x00080000#32 }, [],
    rfl, rfl, rfl, rfl, by decide⟩

theorem witness_LiteralIsExact : qLiteral (-25) 2 = some 0xFFFFC000#32 ∧ (0xFFFFC000#32).toInt * 10 ^ 2 = (-25) * 65536 := by
  decide

theorem witness_ResetValues : ∃ (s : State) (rest : List Input), s.inReset = true ∧ s.inputs = .resetLine false :: rest :=
  ⟨{ port [.resetLine false] with inReset := true }, [], rfl, rfl⟩
theorem witness_ResetLeavesTableAndClearsRegisters (b : Bool) : ∃ (s : State) (rest : List Input),
    s.inputs = .resetLine b :: rest ∧ s.inReset = !b :=
  ⟨{ port [.resetLine b] with inReset := !b }, [], rfl, rfl⟩

-- StepKeepsTable and StepKeepsConsistency: a good state that takes a step, by a command and by the reset line.
theorem witness_StepKeepsTable : ∃ s t : State, step s = .next t ∧ RtabGood s :=
  ⟨port [wr 0x08 2#32], _, rfl, Config.rtab_contract⟩
theorem witness_StepKeepsConsistency : ∃ s t : State, Consistent s ∧ step s = .next t ∧ t.status = 0x00000202#32 :=
  ⟨port [wr 0x08 4#32], _,
    ⟨by decide, by decide, by decide, by decide, by decide, by decide, by decide, by decide⟩, rfl, by decide⟩
theorem witness_StepKeepsConsistency_reset : ∃ s t : State, Consistent s ∧ step s = .next t ∧ t.inReset = true :=
  ⟨port [.resetLine true], _,
    ⟨by decide, by decide, by decide, by decide, by decide, by decide, by decide, by decide⟩, rfl, rfl⟩

end Sys2Proof.Tests
end

section
/-! PROOFS. The register window in the host's address space (spec/00_scope.md R11 and R18, spec/20_memory.md R50).
FXU_BASE has its low six bits clear, so its 64 bytes fit below 2^32; subtraction modulo 2^32 then keeps every other
address out of the window, those below FXU_BASE included. -/
namespace Sys2Proof.Window
open Sys2Proof Sys2Proof.Machine

theorem fxuBase_and_low_bits : Config.fxuBase &&& 63#32 = 0#32 := by
  have hmask : 0xFFFFFFC0#32 &&& 63#32 = 0#32 := by decide
  rw [Config.fxuBase, BitVec.and_assoc, hmask, BitVec.and_zero]

/-- The base is a multiple of the window's size (R11). -/
theorem fxuBase_aligned : Config.fxuBase.toNat % 64 = 0 :=
  calc Config.fxuBase.toNat % 64
      = Config.fxuBase.toNat &&& 63 := (Nat.and_two_pow_sub_one_eq_mod _ 6).symm
    _ = (Config.fxuBase &&& 63#32).toNat := by rw [BitVec.toNat_and]; rfl
    _ = 0 := by rw [fxuBase_and_low_bits]; rfl

/-- The largest multiple of 64 below 2^32 leaves room for a whole window. -/
theorem fxuBase_no_wrap : Config.fxuBase.toNat + 63 < 2 ^ 32 := by
  have haligned := fxuBase_aligned
  have hword := Config.fxuBase.isLt
  omega

/-- The 64 addresses of the window reach the port by their offsets (R18, R50). -/
theorem accessAtAddress_fxuBase_add (k : AccessKind) {off : Nat} (size : Nat) (hoff : off < 64) :
    accessAtAddress k (Config.fxuBase + BitVec.ofNat 32 off) size = ⟨k, off, size⟩ := by
  have hsmall : off < 2 ^ 32 := by omega
  rw [accessAtAddress, BitVec.add_comm, BitVec.add_sub_cancel, BitVec.toNat_ofNat, Nat.mod_eq_of_lt hsmall]

theorem inWindow_accessAtAddress (k : AccessKind) (addr : Word) (size : Nat) :
    (accessAtAddress k addr size).inWindow = true ↔ (addr - Config.fxuBase).toNat < 64 :=
  decide_eq_true_iff

/-- An address below the base wraps to an offset of 64 or more, because the window ends below 2^32. -/
theorem sub_fxuBase_lt_iff (addr : Word) : (addr - Config.fxuBase).toNat < 64 ↔
    Config.fxuBase.toNat ≤ addr.toNat ∧ addr.toNat < Config.fxuBase.toNat + 64 := by
  have hwrap := fxuBase_no_wrap
  have hword := addr.isLt
  rw [BitVec.toNat_sub]
  omega

/-- Settles O44: the alignment of FXU_BASE excludes a wrap, and without one the offset of an address tells on which
side of the window it lies. -/
theorem windowIsSixtyFourBytesAtBase : Obligations.WindowIsSixtyFourBytesAtBase :=
  ⟨fxuBase_aligned, fxuBase_no_wrap, fun k _ size hoff => accessAtAddress_fxuBase_add k size hoff,
    fun k addr size => (inWindow_accessAtAddress k addr size).trans (sub_fxuBase_lt_iff addr)⟩

end Sys2Proof.Window
end

section
/-! PROOFS. The shared layer of the register proofs: the bits a command or a register write keeps, the commands as
words, what Execute leaves, and every completed step by cases. -/
namespace Sys2Proof.Registers
open Sys2Proof Sys2Proof.Machine

/-! ### Bits kept -/

/-- Words that agree on every bit of a mask agree under it. -/
theorem and_eq_and_of_bits {x y m : Word} (h : ∀ j, m.getLsbD j = true → x.getLsbD j = y.getLsbD j) :
    x &&& m = y &&& m := by
  refine BitVec.eq_of_getLsbD_eq fun j _ => ?_
  rw [BitVec.getLsbD_and, BitVec.getLsbD_and]
  cases hm : m.getLsbD j with
  | false => rw [Bool.and_false, Bool.and_false]
  | true => rw [h j hm]

theorem bit_of_reservedStatusMask {j : Nat} (h : (0xFFFFF0F0#32).getLsbD j = true) : (4 ≤ j ∧ j < 8) ∨ 12 ≤ j := by
  have hmask : ∀ k : Fin 32, (0xFFFFF0F0#32).getLsbD k.val = true → (4 ≤ k.val ∧ k.val < 8) ∨ 12 ≤ k.val := by decide
  exact hmask ⟨j, BitVec.lt_of_getLsbD h⟩ h

theorem bit_of_reservedCtrlMask {j : Nat} (h : (0xFFFFFFF0#32).getLsbD j = true) : 4 ≤ j := by
  have hmask : ∀ k : Fin 32, (0xFFFFFFF0#32).getLsbD k.val = true → 4 ≤ k.val := by decide
  exact hmask ⟨j, BitVec.lt_of_getLsbD h⟩ h

/-- A command keeps the reserved bits of STATUS. -/
theorem getLsbD_statusAfter_reserved (e : Option Event) (st : Word) {j : Nat} (hj : (4 ≤ j ∧ j < 8) ∨ 12 ≤ j) :
    (statusAfter e st).getLsbD j = st.getLsbD j := by
  have h4 : 4 ≤ j := by omega
  rw [getLsbD_statusAfter, decide_eq_true h4, Bool.true_and]
  cases e with
  | none => exact Bool.or_false _
  | some e =>
    have hcode := e.code_lt
    have hne : j ≠ e.code ∧ j ≠ 8 + e.code := by omega
    simp [hne.1, hne.2]

/-- A command or-s its per-command bits into the sticky bits (R27). -/
theorem getLsbD_statusAfter_sticky (e : Option Event) (st : Word) {i : Nat} (hi : i < 4) :
    (statusAfter e st).getLsbD (8 + i) = (st.getLsbD (8 + i) || (statusAfter e st).getLsbD i) := by
  have h4 : ¬ 4 ≤ i := by omega
  have h8 : 4 ≤ 8 + i := by omega
  rw [getLsbD_statusAfter, getLsbD_statusAfter, decide_eq_true h8, decide_eq_false h4]
  cases e with
  | none => simp
  | some e =>
    have hcode := e.code_lt
    have hne : i ≠ 8 + e.code ∧ 8 + i ≠ e.code := by omega
    simp [hne.1, hne.2]

/-- The per-command bits a command leaves: those of its event alone (R72, R167). -/
theorem eventBits_statusAfter (e : Option Event) (st : Word) :
    (statusAfter e st).extractLsb' 0 4 = e.elim 0#4 (fun ev => 1#4 <<< ev.code) := by
  refine BitVec.eq_of_getLsbD_eq fun j hj => ?_
  have h4 : ¬ 4 ≤ j := by omega
  have hbit : ((statusAfter e st).extractLsb' 0 4).getLsbD j = (statusAfter e st).getLsbD j := by simp [hj]
  rw [hbit, getLsbD_statusAfter, decide_eq_false h4, Bool.false_and, Bool.false_or]
  cases e with
  | none => simp
  | some ev =>
    have hne : j ≠ 8 + ev.code := by omega
    have hshift : ∀ k l : Fin 4, (1#4 <<< k.val).getLsbD l.val = decide (l.val = k.val) := by decide
    simpa [hne] using (hshift ⟨ev.code, ev.code_lt⟩ ⟨j, hj⟩).symm

/-- A STATUS write keeps every bit outside 11:8. -/
theorem getLsbD_clearSticky_of_not_sticky (v st : Word) {j : Nat} (hj : j < 8 ∨ 12 ≤ j) :
    (clearSticky v st).getLsbD j = st.getLsbD j := by
  have h : ¬ (8 ≤ j ∧ j < 12) := by omega
  rw [getLsbD_clearSticky, decide_eq_false h, Bool.and_false, Bool.not_false, Bool.and_true]

/-- A CTRL write keeps every bit outside 3:0. -/
theorem getLsbD_writeEnables_of_ge (v c : Word) {j : Nat} (hj : 4 ≤ j) :
    (writeEnables v c).getLsbD j = c.getLsbD j := by
  rw [getLsbD_writeEnables, if_neg (by omega)]

/-! ### Commands as words -/

theorem decode_encode (i : Instr) : decode (encode i) = .ok i := by cases i <;> decide

theorem encode_toNat_le (i : Instr) : (encode i).toNat ≤ 4 := by cases i <;> decide

/-- Every word up to 4 is the word of a command (R73). -/
theorem exists_encode_of_le {w : Word} (h : w.toNat ≤ 4) : ∃ i, w = encode i := by
  obtain h | h | h | h | h : w = 0#32 ∨ w = 1#32 ∨ w = 2#32 ∨ w = 3#32 ∨ w = 4#32 := by bv_omega
  · exact ⟨.mul, h⟩
  · exact ⟨.div, h⟩
  · exact ⟨.recip, h⟩
  · exact ⟨.adiv, h⟩
  · exact ⟨.mod, h⟩

theorem commandOf_error : ∀ op : BitVec 3, 4 < op.toNat → commandOf op = .error .reservedOperation := by decide

/-- With RSV = 0 the word is its OP field (R71). -/
theorem fieldsOf_op_toNat {w : Word} (h : (fieldsOf w).rsvClear = true) : (fieldsOf w).op.toNat = w.toNat := by
  have hrsv : (w.extractLsb' 3 29).toNat = 0 := congrArg BitVec.toNat (beq_iff_eq.mp h)
  rw [BitVec.extractLsb'_toNat, Nat.shiftRight_eq_div_pow] at hrsv
  rw [fieldsOf, BitVec.extractLsb'_toNat, Nat.shiftRight_zero]
  omega

/-- Every word above 4 is rejected (R75). -/
theorem decode_error_of_gt {w : Word} (h : 4 < w.toNat) : ∃ r, decode w = .error r := by
  unfold decode
  split
  case isTrue hrsv => exact ⟨_, commandOf_error _ ((fieldsOf_op_toNat hrsv).symm ▸ h)⟩
  case isFalse => exact ⟨_, rfl⟩

/-! ### What Execute leaves -/

/-- Execute of any word completes, in one of two ways: a command's word writes that command's outcome, and any other
word records IllegalCommand alone (R72, R163). -/
theorem execute_word_cases (c : Word) (s : State) :
    (∃ i, c = encode i ∧
      execute c s = .next { s with result := (outcome i (rtabAt s) s.opa s.opb).1,
                                   status := statusAfter (outcome i (rtabAt s) s.opa s.opb).2 s.status }) ∨
    (4 < c.toNat ∧ execute c s = .next { s with status := statusAfter (some .illegalCommand) s.status }) := by
  by_cases h : c.toNat ≤ 4
  · obtain ⟨i, rfl⟩ := exists_encode_of_le h
    exact .inl ⟨i, rfl, by rw [execute, decode_encode]; exact exec_eq i s⟩
  · obtain ⟨r, hr⟩ := decode_error_of_gt (Nat.lt_of_not_le h)
    exact .inr ⟨Nat.lt_of_not_le h, by rw [execute, hr]; exact illegalCommand_eq s⟩

/-- Execute leaves in STATUS what some event, or none, leaves there. -/
theorem execute_status (c : Word) (s : State) :
    ∃ r e, execute c s = .next { s with result := r, status := statusAfter e s.status } := by
  obtain ⟨i, -, h⟩ | ⟨-, h⟩ := execute_word_cases c s
  · exact ⟨_, _, h⟩
  · exact ⟨s.result, _, h⟩

/-! ### Completed steps -/

/-- A step on the reset line. -/
theorem step_resetLine {s : State} {b : Bool} {rest : List Input} (h : s.inputs = .resetLine b :: rest) :
    step s = .next (driveReset b (s.setInputs rest)) := by
  rw [step, performNext, h]
  rfl

/-- A completed step changes the port alone, performs an accepted write, or takes the reset line. -/
theorem step_next_inv {s t : State} (h : step s = .next t) :
    (∃ r l, t = { s with inputs := l, response := r }) ∨
    (∃ off v rest, s.inputs = .access ⟨.write v, off, 4⟩ :: rest ∧
      busWrite off v { s with inputs := rest, response := some .written } = .next t) ∨
    (∃ b rest, t = driveReset b (s.setInputs rest)) := by
  by_cases hline : ∃ b rest, s.inputs = .resetLine b :: rest
  · obtain ⟨b, rest, hi⟩ := hline
    rw [step_resetLine hi] at h
    cases h
    exact .inr (.inr ⟨b, rest, rfl⟩)
  · obtain hport | ⟨off, v, rest, hi, -, -, -, hw⟩ :=
      step_next_cases h fun b rest hi => hline ⟨b, rest, hi⟩
    · exact .inl hport
    · exact .inr (.inl ⟨off, v, rest, hi, hw⟩)

/-- The reset line's step does nothing, or leaves the reset values with RTAB kept. -/
theorem driveReset_cases (b : Bool) (s : State) :
    driveReset b s = s ∨ driveReset b s = { resetRegisters s with inReset := b } := by
  unfold driveReset
  split
  · exact .inl rfl
  · exact .inr rfl

theorem driveReset_rtab (b : Bool) (s : State) : (driveReset b s).rtab = s.rtab := by
  obtain h | h := driveReset_cases b s
  · rw [h]
  · rw [h]; rfl

theorem busWrite_rtab {off : Nat} {v : Word} {s t : State} (h : busWrite off v s = .next t) : t.rtab = s.rtab := by
  obtain ⟨u, hu, -, -, -, hrtab⟩ := busWrite_next off v s
  rw [hu] at h
  cases h
  exact hrtab

/-- No completed step changes RTAB (R32). -/
theorem step_rtab {s t : State} (h : step s = .next t) : t.rtab = s.rtab := by
  obtain ⟨r, l, rfl⟩ | ⟨off, v, rest, -, hw⟩ | ⟨b, rest, rfl⟩ := step_next_inv h
  · rfl
  · exact (busWrite_rtab hw :)
  · exact driveReset_rtab b _

end Sys2Proof.Registers
end

section
/-! PROOFS. The invariant Consistent (spec/10_state.md R26 and R28, spec/60_exceptions.md R161 to R164 and R167): each
command's event fits its word and its RESULT, and a state whose STATUS was left by a fitting event is consistent. -/
namespace Sys2Proof.Consistency
open Sys2Proof Sys2Proof.Machine Sys2Proof.Registers

/-! ### MOD's residue is not negative (R157) -/

theorem getLsbD_31_eq_false_iff (w : Word) : w.getLsbD 31 = false ↔ w.toNat < 2 ^ 31 := by
  have h : w.getLsbD 31 = w.msb := (BitVec.msb_eq_getLsbD_last w).symm
  rw [h, BitVec.msb_eq_false_iff_two_mul_lt]
  omega

/-- On the fast path bit 31 of the mask can only be 1 beside bit 31 of the modulus, which the test excludes. -/
theorem modMask_top_of_fastPath {b : Word} (hb : b ≠ 0#32) (h : fastPath b = true) :
    (modMask b).getLsbD 31 = false := by
  by_contra hmask
  have hpred : ¬ (b - 1#32).toNat < 2 ^ 31 := by rwa [← getLsbD_31_eq_false_iff, ← modMask_eq]
  have htop : ¬ b.toNat < 2 ^ 31 := by bv_omega
  rw [← getLsbD_31_eq_false_iff, Bool.not_eq_false] at hpred htop
  have hand : (b &&& (b - 1#32)).getLsbD 31 = (0#32).getLsbD 31 := by rw [(fastPath_iff_and_pred b).mp h]
  rw [BitVec.getLsbD_and, hpred, htop] at hand
  exact absurd hand (by decide)

theorem generalMod_top (a : Word) {b : Word} (hb : b ≠ 0#32) : (generalMod a b).getLsbD 31 = false := by
  have hpos : mag b ≠ 0 := fun h => hb (mag_eq_zero.mp h)
  have hmag := mag_le b
  have habs : (trem (s32 a) (s32 b)).natAbs < mag b := by
    rw [trem_eq, Int.natAbs_tmod]
    exact Nat.mod_lt _ (Nat.pos_of_ne_zero hpos)
  rw [getLsbD_31_eq_false_iff, generalMod, u32, BitVec.toNat_ofInt]
  split <;> omega

theorem modF_top (a b : Word) : (modF a b).1.getLsbD 31 = false := by
  unfold modF
  split
  case isTrue => decide
  case isFalse hb =>
    split
    case isTrue => decide
    case isFalse =>
      split
      case isTrue hfast => rw [BitVec.getLsbD_and, modMask_top_of_fastPath hb hfast, Bool.and_false]
      case isFalse => exact generalMod_top a hb

/-! ### The event of each command -/

/-- What a command word, a RESULT and the event recorded with them say of one another (R157, R161 to R164). -/
inductive EventFits (c r : Word) : Option Event → Prop where
  | none (hc : c.toNat ≤ 4) (hr : c = 4#32 → r.getLsbD 31 = false) : EventFits c r none
  | saturated (hc : c = 1#32) (hr : r = Config.maxF ∨ r = Config.minF) : EventFits c r (some .saturated)
  | domainError (hc : c = 2#32 ∨ c = 3#32 ∨ c = 4#32) (hr : r = 0#32) : EventFits c r (some .domainError)
  | illegalCommand (hc : 4 < c.toNat) : EventFits c r (some .illegalCommand)
  | mulOverflow (hc : c = 0#32 ∨ c = 3#32) : EventFits c r (some .mulOverflow)

/-- MULf fits MUL's word and ADIV's. -/
theorem mulF_fits {c : Word} (hc : c = 0#32 ∨ c = 3#32) (a b : Word) : EventFits c (mulF a b).1 (mulF a b).2 := by
  unfold mulF
  split
  case isTrue => exact .mulOverflow hc
  case isFalse =>
    have hle : c.toNat ≤ 4 := by obtain rfl | rfl := hc <;> decide
    have hne : c ≠ 4#32 := by obtain rfl | rfl := hc <;> decide
    exact .none hle fun h => absurd h hne

theorem saturatedQuotient_extreme (a b : Word) :
    saturatedQuotient a b = Config.maxF ∨ saturatedQuotient a b = Config.minF := by
  unfold saturatedQuotient
  split
  · exact .inr rfl
  · exact .inl rfl

theorem divF_fits (a b : Word) : EventFits (encode .div) (divF a b).1 (divF a b).2 := by
  cases h : divGuard a b with
  | true => rw [divF_guard h]; exact .saturated rfl (saturatedQuotient_extreme a b)
  | false => rw [divF_no_guard h]; exact .none (by decide) (fun h => absurd h (by decide))

theorem recipF_fits (table : Nat → Word) (b : Word) :
    EventFits (encode .recip) (recipF table b).1 (recipF table b).2 := by
  by_cases h : b = 0#32
  · rw [h, recipF_zero]; exact .domainError (.inl rfl) rfl
  · rw [recipF_nonzero table h]; exact .none (by decide) (fun h => absurd h (by decide))

theorem adivF_fits (table : Nat → Word) (a b : Word) :
    EventFits (encode .adiv) (adivF table a b).1 (adivF table a b).2 := by
  by_cases h : b = 0#32
  · rw [h, adivF_zero]; exact .domainError (.inr (.inl rfl)) rfl
  · rw [adivF_nonzero table a h]; exact mulF_fits (.inr rfl) a _

/-- Only a zero modulus raises an event. -/
theorem modF_event {b : Word} (a : Word) (h : b ≠ 0#32) : (modF a b).2 = none := by
  rw [modF, if_neg h]
  split
  · rfl
  · split <;> rfl

theorem modF_fits (a b : Word) : EventFits (encode .mod) (modF a b).1 (modF a b).2 := by
  by_cases h : b = 0#32
  · rw [h, modF_zero]; exact .domainError (.inr (.inr rfl)) rfl
  · rw [modF_event a h]; exact .none (by decide) (fun _ => modF_top a b)

/-- Every command's outcome fits its word. -/
theorem outcome_fits (i : Instr) (table : Nat → Word) (a b : Word) :
    EventFits (encode i) (outcome i table a b).1 (outcome i table a b).2 := by
  cases i with
  | mul => exact mulF_fits (.inl rfl) a b
  | div => exact divF_fits a b
  | recip => exact recipF_fits table b
  | adiv => exact adivF_fits table a b
  | mod => exact modF_fits a b

/-! ### Establishing the invariant -/

/-- A state whose STATUS was left by an event that fits its CMD and RESULT is consistent. -/
theorem consistent_of_eventFits {t : State} {e : Option Event} {st : Word} (hstatus : t.status = statusAfter e st)
    (hfits : EventFits t.cmd t.result e) (hst : st &&& 0xFFFFF0F0#32 = 0x00000000#32)
    (hctrl : t.ctrl &&& 0xFFFFFFF0#32 = 0x00000000#32) : Consistent t := by
  have hbit (ev : Event) : t.status.getLsbD ev.code = true ↔ e = some ev := by
    rw [hstatus]; exact eventBit_statusAfter_iff e st ev
  exact {
    statusReserved := by
      rw [hstatus, ← hst]
      exact and_eq_and_of_bits fun j hj => getLsbD_statusAfter_reserved e st (bit_of_reservedStatusMask hj)
    ctrlReserved := hctrl
    oneEvent := by
      rw [State.eventBits, hstatus, eventBits_statusAfter]
      obtain _ | ev := e
      · decide
      · cases ev <;> decide
    illegal := by
      refine (hbit .illegalCommand).trans ?_
      cases hfits with
      | illegalCommand hc => exact iff_of_true rfl hc
      | none hc => simp; omega
      | saturated hc => simp [hc]
      | domainError hc => obtain hc | hc | hc := hc <;> simp [hc]
      | mulOverflow hc => obtain hc | hc := hc <;> simp [hc]
    saturated := fun h => by
      obtain rfl := (hbit .saturated).mp h
      cases hfits with | saturated hc hr => exact ⟨hc, hr⟩
    domain := fun h => by
      obtain rfl := (hbit .domainError).mp h
      cases hfits with | domainError hc hr => exact ⟨hc, hr⟩
    overflow := fun h => by
      obtain rfl := (hbit .mulOverflow).mp h
      cases hfits with | mulOverflow hc => exact hc
    residue := fun h => by
      cases hfits with
      | none hc hr => exact hr h
      | saturated hc => exact absurd (hc.symm.trans h) (by decide)
      | domainError hc hr => rw [hr]; decide
      | illegalCommand hc => exact absurd hc (by rw [h]; decide)
      | mulOverflow hc => rw [h] at hc; exact absurd hc (by decide) }

/-- The invariant speaks of CMD, RESULT, STATUS outside its sticky bits and CTRL outside its enables alone. -/
theorem consistent_of_agree {s t : State} (h : Consistent s) (hcmd : t.cmd = s.cmd) (hresult : t.result = s.result)
    (hstatus : ∀ j, j < 8 ∨ 12 ≤ j → t.status.getLsbD j = s.status.getLsbD j)
    (hctrl : ∀ j, 4 ≤ j → t.ctrl.getLsbD j = s.ctrl.getLsbD j) : Consistent t where
  statusReserved := by
    rw [← h.statusReserved]
    exact and_eq_and_of_bits fun j hj => hstatus j (by have := bit_of_reservedStatusMask hj; omega)
  ctrlReserved := by
    rw [← h.ctrlReserved]
    exact and_eq_and_of_bits fun j hj => hctrl j (bit_of_reservedCtrlMask hj)
  oneEvent := by
    have hevents : t.eventBits = s.eventBits := BitVec.eq_of_getLsbD_eq fun j hj => by
      rw [getLsbD_eventBits, getLsbD_eventBits, hstatus j (by omega)]
    rw [hevents]
    exact h.oneEvent
  illegal := by rw [hstatus 2 (by omega), hcmd]; exact h.illegal
  saturated := by rw [hstatus 0 (by omega), hcmd, hresult]; exact h.saturated
  domain := by rw [hstatus 1 (by omega), hcmd, hresult]; exact h.domain
  overflow := by rw [hstatus 3 (by omega), hcmd]; exact h.overflow
  residue := by rw [hcmd, hresult]; exact h.residue

/-- All registers are 0, which is no event beside the word of MUL. -/
theorem reset_consistent : Consistent State.reset :=
  consistent_of_eventFits (e := none) (st := 0#32) (by decide) (.none (by decide) (fun h => absurd h (by decide)))
    (by decide) (by decide)

/-! ### Preserving it -/

/-- Execute of the word CMD holds makes STATUS a record of it, whatever it recorded before. -/
theorem execute_consistent {s t : State} (hst : s.status &&& 0xFFFFF0F0#32 = 0x00000000#32)
    (hctrl : s.ctrl &&& 0xFFFFFFF0#32 = 0x00000000#32) (h : execute s.cmd s = .next t) : Consistent t := by
  obtain ⟨i, hc, he⟩ | ⟨hc, he⟩ := execute_word_cases s.cmd s
  · rw [he] at h
    cases h
    have hfits := outcome_fits i (rtabAt s) s.opa s.opb
    rw [← hc] at hfits
    exact consistent_of_eventFits rfl hfits hst hctrl
  · rw [he] at h
    cases h
    exact consistent_of_eventFits rfl (.illegalCommand hc) hst hctrl

theorem busWrite_consistent {off : Nat} {v : Word} {s t : State} (h : busWrite off v s = .next t)
    (hs : Consistent s) : Consistent t := by
  obtain ⟨-, hw⟩ | ⟨-, hw⟩ | ⟨-, hw⟩ | ⟨-, hw⟩ | ⟨-, hw⟩ | ⟨-, hw⟩ := busWrite_cases off v s <;> rw [hw] at h
  case inr.inr.inl => exact execute_consistent (s := s.setCmd v) hs.statusReserved hs.ctrlReserved h
  all_goals cases h
  · exact consistent_of_agree hs rfl rfl (fun _ _ => rfl) (fun _ _ => rfl)
  · exact consistent_of_agree hs rfl rfl (fun _ _ => rfl) (fun _ _ => rfl)
  · exact consistent_of_agree hs rfl rfl (fun _ hj => getLsbD_clearSticky_of_not_sticky v _ hj) (fun _ _ => rfl)
  · exact consistent_of_agree hs rfl rfl (fun _ _ => rfl) (fun _ hj => getLsbD_writeEnables_of_ge v _ hj)
  · exact hs

theorem driveReset_consistent {s : State} (b : Bool) (hs : Consistent s) : Consistent (driveReset b s) := by
  obtain h | h := driveReset_cases b s <;> rw [h]
  · exact hs
  · exact consistent_of_agree reset_consistent rfl rfl (fun _ _ => rfl) (fun _ _ => rfl)

/-- Settles O50. -/
theorem resetIsConsistent : Obligations.ResetIsConsistent := reset_consistent

/-- Settles O51: what waits at the port is no part of the invariant, a write keeps it, and so does the reset line. -/
theorem stepKeepsConsistency : Obligations.StepKeepsConsistency := by
  intro s t hs h
  obtain ⟨r, l, rfl⟩ | ⟨off, v, rest, -, hw⟩ | ⟨b, rest, rfl⟩ := step_next_inv h
  · exact consistent_of_agree hs rfl rfl (fun _ _ => rfl) (fun _ _ => rfl)
  · exact busWrite_consistent hw (consistent_of_agree hs rfl rfl (fun _ _ => rfl) (fun _ _ => rfl))
  · exact driveReset_consistent b (consistent_of_agree hs rfl rfl (fun _ _ => rfl) (fun _ _ => rfl))

end Sys2Proof.Consistency
end

section
/-! PROOFS. The registers of spec/10_state.md: what a command, a bus access and reset do to each of them. -/
namespace Sys2Proof.Registers
open Sys2Proof Sys2Proof.Machine

/-- Settles O5: a command writes RESULT and STATUS alone, and its events are or-ed into the sticky bits. -/
theorem commandFrame : Obligations.CommandFrame := by
  intro i s t h
  rw [exec_eq] at h
  cases h
  refine ⟨rfl, rfl, rfl, rfl, rfl, rfl, rfl, rfl, fun j hj => getLsbD_statusAfter_reserved _ _ hj, ?_⟩
  refine BitVec.eq_of_getLsbD_eq fun j hj => ?_
  rw [BitVec.getLsbD_or, getLsbD_stickyBits, getLsbD_stickyBits, getLsbD_eventBits, decide_eq_true hj,
    Bool.true_and, Bool.true_and, Bool.true_and]
  exact getLsbD_statusAfter_sticky _ _ hj

/-- Settles O33: Execute or-s each per-command bit into its sticky bit, and a STATUS write is write-one-to-clear. -/
theorem stickyBitsAccumulate : Obligations.StickyBitsAccumulate := by
  refine ⟨fun c s => ?_, fun s v rest hr hi => ?_⟩
  · obtain ⟨r, e, he⟩ := execute_status c s
    refine ⟨_, he, fun i hi => ?_⟩
    rw [getLsbD_statusAfter_sticky e s.status hi, Bool.or_eq_true]
    exact ⟨.inr, .inl⟩
  · refine ⟨_, step_write hr (by decide) (by decide) hi, fun j => ?_⟩
    rw [State.setStatus_status, getLsbD_clearSticky, Bool.and_comm (v.getLsbD j)]

/-- Which register a write can change, and to what (R37): each by its own offset, RESULT and STATUS also by Execute. -/
theorem busWrite_changes {off : Nat} {v : Word} {s t : State} (h : busWrite off v s = .next t) :
    (t.opa ≠ s.opa → off = 0x00 ∧ t.opa = v) ∧ (t.opb ≠ s.opb → off = 0x04 ∧ t.opb = v) ∧
    (t.cmd ≠ s.cmd → off = 0x08 ∧ t.cmd = v) ∧ (t.result ≠ s.result → off = 0x08 ∧ v.toNat ≤ 4) ∧
    (t.status ≠ s.status → off = 0x08 ∨ off = 0x10) ∧ (t.ctrl ≠ s.ctrl → off = 0x14) := by
  obtain ⟨ho, hw⟩ | ⟨ho, hw⟩ | ⟨ho, hw⟩ | ⟨ho, hw⟩ | ⟨ho, hw⟩ | ⟨-, hw⟩ := busWrite_cases off v s <;> rw [hw] at h
  case inr.inr.inl =>
    obtain ⟨i, hc, he⟩ | ⟨-, he⟩ := execute_word_cases v (s.setCmd v) <;> rw [he] at h <;> cases h
    · have hle : v.toNat ≤ 4 := hc ▸ encode_toNat_le i
      simp [ho, hle]
    · simp [ho]
  all_goals cases h
  · simp [ho]
  · simp [ho]
  · simp [ho]
  · simp [ho]
  · simp

/-- Settles O42: an accepted write changes its own register alone; what else completes changes only the port. -/
theorem registersChangeOnlyByTheirWrites : Obligations.RegistersChangeOnlyByTheirWrites := by
  intro s t h hline
  obtain ⟨r, l, rfl⟩ | ⟨off, v, rest, hi, -, -, -, hw⟩ := step_next_cases h hline
  · simp
  · obtain ⟨hopa, hopb, hcmd, hresult, hstatus, hctrl⟩ := busWrite_changes hw
    have hreset : t.inReset = s.inReset := by
      obtain ⟨u, hu, -, hur, -⟩ := busWrite_next off v { s with inputs := rest, response := some .written }
      rw [hu] at hw
      cases hw
      exact hur
    refine ⟨fun hne => ?_, fun hne => ?_, fun hne => ?_, fun hne => ?_, fun hne => ?_, fun hne => ?_, hreset⟩
    · obtain ⟨rfl, hv⟩ := hopa hne
      exact ⟨v, rest, hi, hv⟩
    · obtain ⟨rfl, hv⟩ := hopb hne
      exact ⟨v, rest, hi, hv⟩
    · obtain ⟨rfl, hv⟩ := hcmd hne
      exact ⟨v, rest, hi, hv⟩
    · obtain ⟨rfl, hv⟩ := hresult hne
      exact ⟨v, rest, hi, hv⟩
    · obtain rfl | rfl := hstatus hne
      · exact ⟨v, rest, .inl hi⟩
      · exact ⟨v, rest, .inr hi⟩
    · obtain rfl := hctrl hne
      exact ⟨v, rest, hi⟩

/-- Settles O48: no step changes the entries given as data, and RTAB is read through them alone. -/
theorem stepKeepsTable : Obligations.StepKeepsTable := by
  intro s t h
  have htable : rtabAt t = rtabAt s := rtabAt_congr (step_rtab h)
  exact ⟨congrFun htable, fun hgood => by rwa [RtabGood, htable]⟩

/-- Settles O32: R31 written out for the four codes. -/
theorem irqIsStickyAndEnabled : Obligations.IrqIsStickyAndEnabled := by
  intro s
  simp only [State.irq, irqLevel, Bool.or_eq_true, Bool.and_eq_true]
  constructor
  · rintro (((h | h) | h) | h)
    · exact ⟨0, by decide, h⟩
    · exact ⟨1, by decide, h⟩
    · exact ⟨2, by decide, h⟩
    · exact ⟨3, by decide, h⟩
  · rintro ⟨i, hi, h⟩
    interval_cases i
    · exact .inl (.inl (.inl h))
    · exact .inl (.inl (.inr h))
    · exact .inl (.inr h)
    · exact .inr h

/-! ### Reserved offsets and reset -/

/-- From 0x1C on every offset is reserved (R21). -/
theorem regAt_reserved {off : Nat} (h : 0x1C ≤ off) : regAt off = .reserved := by
  unfold regAt
  split
  case h_8 => rfl
  all_goals exact absurd h (by decide)

theorem busRead_reserved {off : Nat} (h : 0x1C ≤ off) (s : State) : busRead off s = 0x00000000#32 := by
  rw [busRead, regAt_reserved h]

theorem regAt_eq_info_iff (off : Nat) : regAt off = .info ↔ off = 0x18 := by
  unfold regAt
  split <;> simp_all

/-- Settles O36: the offsets in question name no writable register, and the two masked writes keep their other bits. -/
theorem readOnlyWritesIgnored : Obligations.ReadOnlyWritesIgnored := by
  refine ⟨fun s off v rest hr h4 hoff hi => ?_, fun s v rest hr hi => ?_, fun s v rest hr hi => ?_,
    fun s off rest hr h4 hlow hhigh hi => ?_⟩
  · rw [step_write hr h4 (by omega) hi]
    obtain ⟨ho, -⟩ | ⟨ho, -⟩ | ⟨ho, -⟩ | ⟨ho, -⟩ | ⟨ho, -⟩ | ⟨-, hw⟩ :=
      busWrite_cases off v { s with inputs := rest, response := some .written }
    case inr.inr.inr.inr.inr => exact hw
    all_goals omega
  · exact ⟨_, step_write hr (by decide) (by decide) hi, rfl, fun j hj => getLsbD_clearSticky_of_not_sticky v _ hj⟩
  · exact ⟨_, step_write hr (by decide) (by decide) hi, rfl, fun j hj => getLsbD_writeEnables_of_ge v _ hj⟩
  · rw [step_read hr h4 hhigh hi, busRead_reserved hlow]

/-- After reset INFO alone reads other than 0 (R33). -/
theorem busRead_reset (off : Nat) :
    busRead off State.reset = if off = 0x18 then 0x00012010#32 else 0x00000000#32 := by
  simp only [← regAt_eq_info_iff, busRead]
  cases regAt off <;> rfl

/-- Settles O46: the reset values are the fields of State.reset, and the reset line leaves RTAB alone. -/
theorem resetValues : Obligations.ResetValues := by
  refine ⟨rfl, rfl, rfl, rfl, rfl, rfl, rfl, fun off _ _ => busRead_reset off, fun s rest _ hi => ?_⟩
  exact ⟨_, step_resetLine hi, rtabAt_congr (driveReset_rtab false _)⟩

end Sys2Proof.Registers
end

section
/-! PROOFS. The register window of spec/20_memory.md: what the port answers to each access, and what it changes. -/
namespace Sys2Proof.Bus
open Sys2Proof Sys2Proof.Machine Sys2Proof.Registers

/-! ### Accesses that complete, and where a step stops -/

theorem accepted_eq_false_iff (a : Access) :
    a.accepted = false ↔ ¬(a.size = 4 ∧ a.off % 4 = 0 ∧ a.off ≤ 0x3C) := by
  simp [Access.accepted]

/-- A read or write outside reset completes, keeps what waits at the port and the reset line, and is answered with
BusError exactly when it is not accepted (R53 to R55). -/
theorem performAccess_completes {a : Access} (hk : a.kind ≠ .fetch) (s : State) :
    ∃ t, performAccess a s = .next t ∧ t.inputs = s.inputs ∧ t.inReset = s.inReset ∧
      (t.response = some .busError ↔ a.accepted = false) := by
  obtain ⟨hf, -⟩ | ⟨-, ha, hp⟩ | ⟨-, ha, hp⟩ | ⟨v, -, ha, hp⟩ := performAccess_cases a s
  · exact absurd hf hk
  · exact ⟨_, hp, rfl, rfl, by simp [ha]⟩
  · exact ⟨_, hp, rfl, rfl, by simp [ha]⟩
  · obtain ⟨t, ht, hinputs, hreset, hresponse, -⟩ := busWrite_next a.off v (s.respond .written)
    exact ⟨t, hp.trans ht, hinputs, hreset, by simp [hresponse, ha]⟩

theorem performAccess_fetch {a : Access} (hk : a.kind = .fetch) (s : State) :
    performAccess a s = .refused .fetchFromWindow := by
  rw [performAccess, hk]

theorem driveReset_inputs (b : Bool) (s : State) : (driveReset b s).inputs = s.inputs := by
  obtain h | h := driveReset_cases b s
  · rw [h]
  · rw [h]; rfl

theorem step_outsideWindow {s : State} {a : Access} {rest : List Input} (hi : s.inputs = .access a :: rest)
    (hw : 64 ≤ a.off) : step s = .fault .outsideWindow := by
  rw [step, performNext, hi]
  exact if_neg (by simpa [Access.inWindow] using hw)

theorem step_accessDuringReset {s : State} {a : Access} {rest : List Input} (hi : s.inputs = .access a :: rest)
    (hw : a.off < 64) (hr : s.inReset = true) : step s = .refused .accessDuringReset := by
  rw [step, performNext, hi]
  exact (if_pos (by simpa [Access.inWindow] using hw)).trans (if_pos hr)

/-- A completed step takes exactly the oldest input (R61). -/
theorem step_takes_oldest {s t : State} {x : Input} {rest : List Input} (hi : s.inputs = x :: rest)
    (h : step s = .next t) : t.inputs = rest := by
  cases x with
  | resetLine b =>
    rw [step_resetLine hi] at h
    cases h
    exact driveReset_inputs b _
  | access a =>
    by_cases hw : 64 ≤ a.off
    · rw [step_outsideWindow hi hw] at h
      cases h
    have hlt : a.off < 64 := Nat.lt_of_not_le hw
    cases hr : s.inReset with
    | true =>
      rw [step_accessDuringReset hi hlt hr] at h
      cases h
    | false =>
      rw [step_access hr hi hlt] at h
      by_cases hk : a.kind = .fetch
      · rw [performAccess_fetch hk] at h
        cases h
      · obtain ⟨u, hu, hinputs, -⟩ := performAccess_completes hk (s.setInputs rest)
        rw [hu] at h
        cases h
        exact hinputs

/-- Settles O39: such an access is the whole step, and performing it completes. -/
theorem everyAccessCompletes : Obligations.EveryAccessCompletes := by
  intro s a rest hr hi hw hk
  obtain ⟨t, ht, hinputs, hreset, hresponse⟩ := performAccess_completes hk (s.setInputs rest)
  exact ⟨t, (step_access hr hi hw).trans ht, hinputs, hreset.trans hr, hresponse.trans (accepted_eq_false_iff a)⟩

/-- Settles O37: a wrong size or a misaligned offset is not accepted, and the answer to that is BusError alone. -/
theorem unacceptedAccessGetsBusError : Obligations.UnacceptedAccessGetsBusError := by
  intro s a rest hr hi hw hk hbad
  have hna : a.accepted = false := (accepted_eq_false_iff a).mpr (by omega)
  rw [step_access hr hi hw]
  obtain ⟨hf, -⟩ | ⟨-, -, hp⟩ | ⟨-, ha, -⟩ | ⟨_, -, ha, -⟩ := performAccess_cases a (s.setInputs rest)
  · exact absurd hf hk
  · exact hp
  · exact absurd ha (by simp [hna])
  · exact absurd ha (by simp [hna])

/-- Settles O38: one stop lemma each, and a fetch that reaches the FXU is refused. -/
theorem stepStopsByName : Obligations.StepStopsByName :=
  ⟨fun _ _ _ hi hw => step_outsideWindow hi hw, fun _ _ _ hi hw hr => step_accessDuringReset hi hw hr,
    fun _ _ _ hi hw hr hk => (step_access hr hi hw).trans (performAccess_fetch hk _)⟩

/-! ### What a read returns and what a write leaves -/

/-- The data of a read, offset by offset (R57). -/
theorem busRead_eq (off : Nat) (s : State) : busRead off s =
    if off = 0x00 then s.opa else if off = 0x04 then s.opb else if off = 0x08 then s.cmd
    else if off = 0x0C then s.result else if off = 0x10 then visibleStatus s.status
    else if off = 0x14 then visibleCtrl s.ctrl else if off = 0x18 then infoWord else 0x00000000#32 := by
  unfold busRead regAt
  split_ifs <;> simp_all

/-- Settles O30: an accepted read is answered with BusRead's data and changes nothing else. -/
theorem readReturnsRegister : Obligations.ReadReturnsRegister := by
  intro s off rest hr h4 hl hi
  rw [step_read hr h4 hl hi, busRead_eq]
  rfl

/-- Settles O31: an accepted write is BusWrite, by its cases; irq is R31's OR in every state. -/
theorem writeChangesItsRegisterAlone : Obligations.WriteChangesItsRegisterAlone := by
  intro s off v rest hr h4 hl hi s'
  refine ⟨?_, fun t _ => irqIsStickyAndEnabled t⟩
  rw [step_write hr h4 hl hi]
  obtain ⟨rfl, hw⟩ | ⟨rfl, hw⟩ | ⟨rfl, hw⟩ | ⟨rfl, hw⟩ | ⟨rfl, hw⟩ | ⟨⟨h0, h1, h2, h3, h5⟩, hw⟩ :=
    busWrite_cases off v s'
  case inr.inr.inr.inr.inr =>
    rw [if_neg h0, if_neg h1, if_neg h2, if_neg h3, if_neg h5]
    exact hw
  all_goals exact hw

theorem execute_of_ok {c : Word} {i : Instr} (h : decode c = .ok i) (s : State) : execute c s = exec i s := by
  rw [execute, h]

theorem execute_of_error {c : Word} {r : DecodeReject} (h : decode c = .error r) (s : State) :
    execute c s = illegalCommand s := by
  rw [execute, h]

/-- Settles O3: an accepted write to CMD is Execute, and Execute of a word that decodes is that command's exec. -/
theorem stepRunsDecodedCommand : Obligations.StepRunsDecodedCommand := by
  intro s w i rest hr hi hdec
  exact (step_write hr (by decide) (by decide) hi).trans (execute_of_ok hdec _)

/-- Settles O40: the command leaves its outcome in RESULT and STATUS, and the two reads that follow change neither. -/
theorem readsAfterCommandSeeItsOutcome : Obligations.ReadsAfterCommandSeeItsOutcome := by
  refine ⟨fun s t x rest hi h => step_takes_oldest hi h, fun s i rest hr hi => ?_⟩
  have hcommand := (stepRunsDecodedCommand s _ i _ hr hi (decode_encode i)).trans (exec_eq i _)
  exact ⟨_, _, _, _, exec_eq i s, hcommand, step_read hr (by decide) (by decide) rfl,
    step_read hr (by decide) (by decide) rfl, rfl, rfl⟩

/-! ### Repeating a write (R60) -/

/-- Recording an event twice records it once: bits 3:0 are the event's both times, and the bits above gain its
sticky bit. -/
theorem statusAfter_idem (e : Option Event) (st : Word) : statusAfter e (statusAfter e st) = statusAfter e st := by
  refine BitVec.eq_of_getLsbD_eq fun j _ => ?_
  simp only [getLsbD_statusAfter]
  cases decide (4 ≤ j) with
  | false => rfl
  | true => simp

theorem clearSticky_idem (v st : Word) : clearSticky v (clearSticky v st) = clearSticky v st := by
  rw [clearSticky, clearSticky, BitVec.and_assoc, BitVec.and_self]

theorem writeEnables_idem (v c : Word) : writeEnables v (writeEnables v c) = writeEnables v c := by
  refine BitVec.eq_of_getLsbD_eq fun j _ => ?_
  simp only [getLsbD_writeEnables]
  split <;> rfl

/-- A command whose outcome stands in RESULT and STATUS already changes nothing. -/
theorem exec_of_recorded {i : Instr} {s : State} (hresult : (outcome i (rtabAt s) s.opa s.opb).1 = s.result)
    (hstatus : statusAfter (outcome i (rtabAt s) s.opa s.opb).2 s.status = s.status) : exec i s = .next s := by
  rw [exec_eq, hresult, hstatus]

/-- Executing a word again finds the operands and the table as they were, so it writes the same RESULT and records the
same event, whatever waits at the port. -/
theorem execute_again {c : Word} {s t : State} (h : execute c s = .next t) (l : List Input) :
    execute c { t with inputs := l } = .next { t with inputs := l } := by
  obtain ⟨i, hdec, he⟩ | ⟨r, hdec, he⟩ := execute_cases c s
  · rw [he, exec_eq] at h
    cases h
    exact (execute_of_ok hdec _).trans (exec_of_recorded rfl (statusAfter_idem _ _))
  · rw [he, illegalCommand_eq] at h
    cases h
    rw [execute_of_error hdec, illegalCommand_eq, statusAfter_idem]

/-- A write to any other offset than those of OPA, OPB, CMD, STATUS and CTRL does nothing (R35). -/
theorem busWrite_ignored {off : Nat} (hoff : off ≠ 0x00 ∧ off ≠ 0x04 ∧ off ≠ 0x08 ∧ off ≠ 0x10 ∧ off ≠ 0x14) (v : Word)
    (s : State) : busWrite off v s = .next s := by
  obtain ⟨ho, -⟩ | ⟨ho, -⟩ | ⟨ho, -⟩ | ⟨ho, -⟩ | ⟨ho, -⟩ | ⟨-, hw⟩ := busWrite_cases off v s
  case inr.inr.inr.inr.inr => exact hw
  all_goals omega

/-- A write done again changes nothing, whatever waits at the port. -/
theorem busWrite_again {off : Nat} {v : Word} {s t : State} (h : busWrite off v s = .next t) (l : List Input) :
    busWrite off v { t with inputs := l } = .next { t with inputs := l } := by
  obtain ⟨rfl, hw⟩ | ⟨rfl, hw⟩ | ⟨rfl, hw⟩ | ⟨rfl, hw⟩ | ⟨rfl, hw⟩ | ⟨hoff, hw⟩ := busWrite_cases off v s <;>
    rw [hw] at h
  case inr.inr.inl =>
    obtain ⟨r, e, he⟩ := execute_status v (s.setCmd v)
    have ht := execute_again h l
    rw [he] at h
    cases h
    exact ht
  all_goals cases h
  · rfl
  · rfl
  · exact congrArg (fun st => Host.Outcome.next { s with status := st, inputs := l }) (clearSticky_idem v s.status)
  · exact congrArg (fun c => Host.Outcome.next { s with ctrl := c, inputs := l }) (writeEnables_idem v s.ctrl)
  · exact busWrite_ignored hoff v _

/-- Settles O41: the state after the first write is one that the same write leaves as it is. -/
theorem repeatedWriteIsIdempotent : Obligations.RepeatedWriteIsIdempotent := by
  intro s off v rest hr h4 hl hi
  obtain ⟨t, ht, hinputs, hreset, hresponse, -⟩ := busWrite_next off v
    { s with inputs := .access ⟨.write v, off, 4⟩ :: rest, response := some .written }
  refine ⟨t, (step_write hr h4 hl hi).trans ht, ?_⟩
  have hsame : { t with inputs := rest, response := some .written } = { t with inputs := rest } := by rw [hresponse]
  rw [step_write (hreset.trans hr) h4 hl hinputs, hsame]
  exact busWrite_again ht rest

end Sys2Proof.Bus
end

section
/-! PROOFS. Command words and literals as the assembler and the decoder read them: the opcode map (R71, R73, R75) and
the exactness of a Q16.16 literal (R79). -/
namespace Sys2Proof.Encoding
open Sys2Proof Sys2Proof.Machine Sys2Proof.Registers

/-! ### The opcode map -/

/-- Bits 31:3 are all 0 exactly in the words below 8 (R71). -/
theorem fieldsOf_rsvClear_iff (w : Word) : (fieldsOf w).rsvClear = true ↔ w.toNat < 8 := by
  have hrsv : (w.extractLsb' 3 29).toNat = w.toNat / 8 := by
    have hword := w.isLt
    rw [BitVec.extractLsb'_toNat, Nat.shiftRight_eq_div_pow]
    omega
  calc (fieldsOf w).rsvClear = true
      ↔ w.extractLsb' 3 29 = 0#29 := beq_iff_eq
    _ ↔ w.toNat / 8 = 0 := by rw [← BitVec.toNat_inj, hrsv]; rfl
    _ ↔ w.toNat < 8 := by omega

/-- Words 5 to 7 have RSV = 0 and an OP that names no command (R75). -/
theorem decode_reservedOperation {w : Word} (hgt : 4 < w.toNat) (hlt : w.toNat < 8) :
    decode w = .error .reservedOperation := by
  have hrsv := (fieldsOf_rsvClear_iff w).mpr hlt
  rw [decode, if_pos hrsv]
  exact commandOf_error _ ((fieldsOf_op_toNat hrsv).symm ▸ hgt)

/-- From 8 on a word has some bit of RSV (R75). -/
theorem decode_reservedBits {w : Word} (h : 8 ≤ w.toNat) : decode w = .error .reservedBits :=
  if_neg (mt (fieldsOf_rsvClear_iff w).mp (Nat.not_lt.mpr h))

/-- A word decodes to a command only as that command's encoding: a word above 4 is rejected, and one up to 4 is an
encoding, which decodes to its own command. -/
theorem decode_eq_ok_iff (w : Word) (i : Instr) : decode w = .ok i ↔ w = encode i := by
  constructor
  · intro h
    by_cases hle : w.toNat ≤ 4
    · obtain ⟨j, rfl⟩ := exists_encode_of_le hle
      rw [decode_encode] at h
      rw [Except.ok.inj h]
    · obtain ⟨r, hr⟩ := decode_error_of_gt (Nat.lt_of_not_le hle)
      rw [hr] at h
      cases h
  · rintro rfl
    exact decode_encode i

theorem decode_error_iff (w : Word) : (∃ r, decode w = .error r) ↔ 4 < w.toNat := by
  constructor
  · rintro ⟨r, hr⟩
    by_contra hle
    obtain ⟨i, rfl⟩ := exists_encode_of_le (Nat.le_of_not_lt hle)
    rw [decode_encode] at hr
    cases hr
  · exact decode_error_of_gt

/-- Settles O1: words 0 to 4 are the encodings, 5 to 7 lie between them and the first reserved bit. -/
theorem opcodeMapDecodes : Obligations.OpcodeMapDecodes :=
  ⟨decode_encode .mul, decode_encode .div, decode_encode .recip, decode_encode .adiv, decode_encode .mod,
    decode_reservedOperation (by decide) (by decide), decode_reservedOperation (by decide) (by decide),
    decode_reservedOperation (by decide) (by decide), decode_reservedBits (by decide), decode_reservedBits (by decide)⟩

/-- Settles O2: every word is either an encoding or above 4, never both. -/
theorem commandWordsOneToOne : Obligations.CommandWordsOneToOne :=
  ⟨decode_eq_ok_iff, decode_error_iff⟩

/-! ### Q16.16 literals -/

/-- The range check of a literal keeps exactly the integers that some word has as its signed value, and `u32` gives
that word. -/
theorem inRange_and_u32_eq_iff (n : Int) (w : Word) :
    (-2 ^ 31 ≤ n ∧ n ≤ 2 ^ 31 - 1) ∧ u32 n = w ↔ w.toInt = n := by
  constructor
  · rintro ⟨⟨hlo, hhi⟩, rfl⟩
    exact BitVec.toInt_ofInt_eq_self (by decide) hlo (Int.lt_of_le_sub_one hhi)
  · rintro rfl
    exact ⟨⟨BitVec.le_toInt w, Int.le_sub_one_of_lt BitVec.toInt_lt⟩, BitVec.ofInt_toInt⟩

/-- A literal is a word only by an exact division, whose quotient is the word's signed value (R79). -/
theorem qLiteral_eq_some_iff (digits : Int) (places : Nat) (w : Word) : qLiteral digits places = some w ↔
    digits * 65536 % (10 ^ places : Nat) = 0 ∧ w.toInt = digits * 65536 / (10 ^ places : Nat) := by
  rw [← inRange_and_u32_eq_iff, qLiteral]
  simp only [Option.ite_none_right_eq_some, Option.some_inj]

/-- An integer is a multiple of a nonzero one exactly when the division leaves no remainder and gives the factor. -/
theorem emod_eq_zero_and_eq_ediv_iff {m : Int} (hm : m ≠ 0) (q n : Int) :
    n % m = 0 ∧ q = n / m ↔ q * m = n := by
  constructor
  · rintro ⟨hdiv, rfl⟩
    exact Int.ediv_mul_cancel (Int.dvd_of_emod_eq_zero hdiv)
  · rintro rfl
    exact ⟨Int.mul_emod_left q m, (Int.mul_ediv_cancel q hm).symm⟩

/-- Settles O45: a literal's word is an exact quotient by the power of ten, and multiplying back loses nothing. -/
theorem literalIsExact : Obligations.LiteralIsExact := by
  intro digits places w
  have hpow : ((10 ^ places : Nat) : Int) ≠ 0 := Int.natCast_ne_zero.mpr (pow_ne_zero places (by decide))
  rw [qLiteral_eq_some_iff, emod_eq_zero_and_eq_ediv_iff hpow, Nat.cast_pow, Nat.cast_ofNat]

end Sys2Proof.Encoding
end

section
/-! PROOFS. MUL (spec/40_multiply.md): the product and the scaled product fit their widths, the result word is the
scaled product unless OVF says that it does not fit, and what follows for the rounding, the laws and the datapath. -/
namespace Sys2Proof.Multiply
open Sys2Proof Sys2Proof.Machine Sys2Proof.Encoding

/-! ### The product and the scaled product (R101, R103, R104) -/

theorem s32_bounds (w : Word) : -2 ^ 31 ≤ s32 w ∧ s32 w ≤ 2 ^ 31 - 1 :=
  ⟨BitVec.le_toInt w, Int.le_sub_one_of_lt BitVec.toInt_lt⟩

theorem product_natAbs_le (a b : Word) : (s32 a * s32 b).natAbs ≤ 2 ^ 62 :=
  calc (s32 a * s32 b).natAbs
      = mag a * mag b := Int.natAbs_mul _ _
    _ ≤ 2 ^ 31 * 2 ^ 31 := Nat.mul_le_mul (mag_le a) (mag_le b)
    _ = 2 ^ 62 := by norm_num

/-- Both factors lie between the extremes of a word. Their distances from the lower end have a non-negative product, and
so have those from the upper end; adding these two with weights 2^31 - 1 and 2^31 cancels the linear terms and leaves
the least product, that of the two opposite extremes. -/
theorem product_bounds (a b : Word) : -2 ^ 62 + 2 ^ 31 ≤ s32 a * s32 b ∧ s32 a * s32 b ≤ 2 ^ 62 := by
  obtain ⟨halow, hahigh⟩ := s32_bounds a
  obtain ⟨hblow, hbhigh⟩ := s32_bounds b
  have hdown : 0 ≤ (s32 a - -2 ^ 31) * (s32 b - -2 ^ 31) :=
    mul_nonneg (Int.sub_nonneg_of_le halow) (Int.sub_nonneg_of_le hblow)
  have hup : 0 ≤ (2 ^ 31 - 1 - s32 a) * (2 ^ 31 - 1 - s32 b) :=
    mul_nonneg (Int.sub_nonneg_of_le hahigh) (Int.sub_nonneg_of_le hbhigh)
  have habs := product_natAbs_le a b
  exact ⟨by linarith only [hdown, hup], by omega⟩

theorem product_toInt_ofInt (a b : Word) : (BitVec.ofInt 64 (s32 a * s32 b)).toInt = s32 a * s32 b := by
  obtain ⟨hlow, hhigh⟩ := product_bounds a b
  exact BitVec.toInt_ofInt_eq_self (by decide) (by omega) (by omega)

theorem mulQuotient_bounds (a b : Word) : -2 ^ 46 + 2 ^ 15 ≤ mulQuotient a b ∧ mulQuotient a b ≤ 2 ^ 46 := by
  obtain ⟨hlow, hhigh⟩ := product_bounds a b
  unfold mulQuotient asr
  omega

/-- The scaled product is the floor of the product over 65536. -/
theorem mulQuotient_floor (a b : Word) :
    mulQuotient a b * 65536 ≤ s32 a * s32 b ∧ s32 a * s32 b < (mulQuotient a b + 1) * 65536 :=
  ⟨Int.ediv_mul_le _ (by decide), Int.lt_ediv_add_one_mul_self _ (by decide)⟩

theorem mulQuotient_eq_fdiv (a b : Word) : mulQuotient a b = Int.fdiv (s32 a * s32 b) 65536 :=
  (Int.fdiv_eq_ediv_of_nonneg _ (by decide)).symm

theorem mulQuotient_comm (a b : Word) : mulQuotient a b = mulQuotient b a := by
  rw [mulQuotient, mulQuotient, Int.mul_comm]

/-- 1.0 is the identity: the product is a shifted up by 16. -/
theorem mulQuotient_one (a : Word) : mulQuotient a 0x00010000#32 = s32 a :=
  Int.mul_ediv_cancel (s32 a) (by decide)

theorem mulQuotient_zero (a : Word) : mulQuotient a 0x00000000#32 = s32 0x00000000#32 := by
  have hzero : s32 0x00000000#32 = 0 := by decide
  rw [mulQuotient, hzero, Int.mul_zero]
  rfl

/-! ### Overflow (R102) -/

theorem outOfRange_iff (q : Int) : outOfRange q = true ↔ q < -2 ^ 31 ∨ q > 2 ^ 31 - 1 := by
  simp only [outOfRange, Bool.or_eq_true, decide_eq_true_eq, gt_iff_lt]

/-- An integer is out of range exactly when its low 32 bits, read signed, are another integer. -/
theorem outOfRange_iff_toInt_u32_ne (q : Int) : outOfRange q = true ↔ (u32 q).toInt ≠ q := by
  rw [outOfRange_iff, ne_eq, ← inRange_and_u32_eq_iff, and_iff_left rfl]
  omega

theorem mulF_comm (a b : Word) : mulF a b = mulF b a := by
  rw [mulF, mulF, mulQuotient_comm]

theorem mulF_event_iff (a b : Word) : (mulF a b).2 = some .mulOverflow ↔ outOfRange (mulQuotient a b) = true := by
  simp [mulF]

/-- MULf of a scaled product that is the signed value of a word gives that word and raises nothing. -/
theorem mulF_of_mulQuotient_eq {a b w : Word} (h : mulQuotient a b = s32 w) : mulF a b = (w, none) := by
  obtain ⟨hrange, hword⟩ := (inRange_and_u32_eq_iff (mulQuotient a b) w).mpr h.symm
  have hin : ¬ outOfRange (mulQuotient a b) = true := by rw [outOfRange_iff]; omega
  rw [mulF, hword, if_neg hin]

/-! ### The command -/

theorem exec_mul (s : State) : exec .mul s = .next { s with
    result := u32 (mulQuotient s.opa s.opb)
    status := statusAfter (mulF s.opa s.opb).2 s.status } :=
  exec_eq .mul s

/-- After MUL, OVF says that RESULT, read signed, is not the scaled product. -/
theorem overflow_iff_result_ne {s t : State} (h : exec .mul s = .next t) :
    t.status.getLsbD 3 = true ↔ t.result.toInt ≠ mulQuotient s.opa s.opb := by
  rw [exec_mul] at h
  cases h
  exact (eventBit_statusAfter_iff _ s.status .mulOverflow).trans
    ((mulF_event_iff _ _).trans (outOfRange_iff_toInt_u32_ne _))

/-- MUL whose scaled product is the signed value of a word leaves that word and no event. -/
theorem exec_mul_of_mulQuotient_eq {s : State} {w : Word} (h : mulQuotient s.opa s.opb = s32 w) :
    exec .mul s = .next { s with result := w, status := s.status &&& 0xFFFFFFF0#32 } := by
  rw [exec_eq, outcome, mulF_of_mulQuotient_eq h]
  rfl

/-- MulOverflow sets bits 3 and 11 of STATUS, so MULf leaves 0x808 or nothing beside the bits a command keeps. -/
theorem statusAfter_mulF (a b st : Word) : statusAfter (mulF a b).2 st = (st &&& 0xFFFFFFF0#32) |||
    (if outOfRange (mulQuotient a b) = true then 0x00000808#32 else 0x00000000#32) := by
  unfold mulF
  split
  case isTrue => exact recordEvent_clear .mulOverflow st
  case isFalse => exact (BitVec.or_zero).symm

/-! ### The obligations on the command's outcome -/

/-- Settles O8: the scaled product is the floor, and the range test is the model's. -/
theorem mulWritesFloorProduct : Obligations.MulWritesFloorProduct := by
  intro s
  simp only [← mulQuotient_eq_fdiv, ← outOfRange_iff, ← statusAfter_mulF]
  exact exec_mul s

/-- Settles O10: the bounds of the product, of its 64-bit word and of the scaled product. -/
theorem mulIntermediateFits : Obligations.MulIntermediateFits := fun a b =>
  ⟨product_natAbs_le a b, product_toInt_ofInt a b, (product_bounds a b).1, (product_bounds a b).2,
    mulQuotient_bounds a b⟩

/-- Settles O11: without OVF the result is the scaled product, which is a floor. -/
theorem mulRoundsDown : Obligations.MulRoundsDown := by
  intro s t h hovf
  have hresult : t.result.toInt = mulQuotient s.opa s.opb := by
    by_contra hne
    rw [(overflow_iff_result_ne h).mpr hne] at hovf
    cases hovf
  rw [hresult]
  exact mulQuotient_floor s.opa s.opb

/-- Settles O12: by 1.0 and by 0 the scaled product is the signed value of a word, and MULf commutes. -/
theorem mulLaws : Obligations.MulLaws := by
  refine ⟨fun s hone => ?_, fun s => ?_, fun s hzero => ?_, fun s t h => ?_⟩
  · exact exec_mul_of_mulQuotient_eq (hone ▸ mulQuotient_one s.opa)
  · refine ⟨_, _, exec_eq .mul s, exec_eq .mul _, ?_, ?_⟩
    · simp only [outcome, mulF_comm s.opb]
    · simp only [outcome, mulF_comm s.opb, State.eventBits]
  · exact exec_mul_of_mulQuotient_eq (hzero ▸ mulQuotient_zero s.opa)
  · rw [exec_mul] at h
    cases h
    exact ⟨rfl, rfl⟩

/-! ### The wide datapath (R101, R104) -/

/-- The 64-bit product of the sign-extended operands, shifted right arithmetically by 16. -/
def wideQuotient (a b : Word) : BitVec 64 := (a.signExtend 64 * b.signExtend 64).sshiftRight 16

/-- The 64-bit product loses nothing, so its shift is the scaled product. -/
theorem wideQuotient_toInt (a b : Word) : (wideQuotient a b).toInt = mulQuotient a b := by
  have hproduct : a.signExtend 64 * b.signExtend 64 = BitVec.ofInt 64 (s32 a * s32 b) := (BitVec.ofInt_mul _ _).symm
  rw [wideQuotient, BitVec.toInt_sshiftRight, hproduct, product_toInt_ofInt, Int.shiftRight_eq_div_pow]
  rfl

theorem wideQuotient_setWidth (a b : Word) : (wideQuotient a b).setWidth 32 = u32 (mulQuotient a b) := by
  rw [← BitVec.signExtend_eq_setWidth_of_le _ (by decide), ← wideQuotient_toInt]
  rfl

/-- The upper half of the shifted product is a sign extension exactly when the scaled product fits a word. -/
theorem wideQuotient_eq_signExtend_iff (a b : Word) :
    ((wideQuotient a b).setWidth 32).signExtend 64 = wideQuotient a b ↔
      (u32 (mulQuotient a b)).toInt = mulQuotient a b := by
  rw [wideQuotient_setWidth, ← BitVec.toInt_inj, BitVec.toInt_signExtend_of_le (by decide), wideQuotient_toInt]

/-- Settles O9: the datapath's shifted product is the scaled product as a 64-bit word. -/
theorem mulMatchesWideDatapath : Obligations.MulMatchesWideDatapath := by
  intro s
  exact ⟨_, exec_mul s, (wideQuotient_setWidth s.opa s.opb).symm,
    (overflow_iff_result_ne (exec_mul s)).trans (not_congr (wideQuotient_eq_signExtend_iff s.opa s.opb).symm)⟩

end Sys2Proof.Multiply
end

section
/-! PROOFS. DIV (spec/41_divide.md): the guard as a comparison of magnitudes and as a bound on the quotient, DIV's next
state under the guard and without it, and what follows for SAT, the extreme operands and the signs. -/
namespace Sys2Proof.Divide
open Sys2Proof Sys2Proof.Machine Sys2Proof.Registers

/-! ### Signs of words -/

theorem mag_neg (w : Word) : mag (-w) = mag w := by
  rw [mag, s32, BitVec.toInt_neg_eq_ite]
  split
  · rfl
  · exact Int.natAbs_neg _

theorem s32_neg {w : Word} (h : w ≠ Config.minF) : s32 (-w) = -s32 w :=
  BitVec.toInt_neg_of_ne_intMin h

theorem msb_eq_false_of_pos {w : Word} (h : 0 < s32 w) : w.msb = false := by
  rw [BitVec.msb_eq_toInt]
  exact decide_eq_false (not_lt.mpr h.le)

theorem msb_eq_true_of_neg {w : Word} (h : s32 w < 0) : w.msb = true := by
  rw [BitVec.msb_eq_toInt]
  exact decide_eq_true h

/-! ### The guard and the quotient (R111, R112, R117, R118) -/

/-- The guard saturates by the sign-XOR rule: MAXF when the sign bits agree (R112). -/
theorem saturatedQuotient_eq (a b : Word) :
    saturatedQuotient a b = if a.msb = b.msb then Config.maxF else Config.minF := by
  have hsign : signBit (a ^^^ b) = (a.msb ^^ b.msb) := by
    rw [← BitVec.msb_xor, BitVec.msb_eq_getLsbD_last]
    rfl
  rw [saturatedQuotient, hsign]
  cases a.msb <;> cases b.msb <;> rfl

/-- Shifting the dividend's magnitude down loses nothing for the comparison with an integer (R117). -/
theorem divGuard_iff (a b : Word) : divGuard a b = true ↔ 2 ^ 14 * mag b ≤ mag a := by
  rw [divGuard, decide_eq_true_iff, lsr, Nat.le_div_iff_mul_le (by decide), Nat.mul_comm]

theorem divGuard_eq_false_iff (a b : Word) : divGuard a b = false ↔ mag a < 2 ^ 14 * mag b := by
  rw [← Bool.not_eq_true, divGuard_iff, Nat.not_le]

/-- For a nonzero divisor the guard is a bound on the magnitude of the quotient (R117). -/
theorem divGuard_iff_quotient (a : Word) {b : Word} (hb : b ≠ 0#32) :
    divGuard a b = true ↔ 2 ^ 30 ≤ mag a * 2 ^ 16 / mag b := by
  have hpos : 0 < mag b := Nat.pos_of_ne_zero (mt mag_eq_zero.mp hb)
  rw [divGuard_iff, Nat.le_div_iff_mul_le hpos]
  omega

/-- DIV's quotient before it is narrowed to a word (R111). -/
def divQuotient (a b : Word) : Int := tdiv (s32 a * 2 ^ 16) (s32 b)

theorem divQuotient_natAbs (a b : Word) : (divQuotient a b).natAbs = mag a * 2 ^ 16 / mag b :=
  (Int.natAbs_tdiv _ _).trans (congrArg (· / mag b) (Int.natAbs_mul _ _))

/-- Without the guard the quotient is below half the representable range (R118). -/
theorem divQuotient_natAbs_lt {a b : Word} (h : divGuard a b = false) : (divQuotient a b).natAbs < 2 ^ 30 := by
  have hb : b ≠ 0#32 := by
    rintro rfl
    rw [divGuard_zero] at h
    cases h
  rw [divQuotient_natAbs, ← Nat.not_le, ← divGuard_iff_quotient a hb, h]
  decide

/-- Without the guard, narrowing loses nothing. -/
theorem toInt_u32_divQuotient {a b : Word} (h : divGuard a b = false) :
    (u32 (divQuotient a b)).toInt = divQuotient a b := by
  have hlt := divQuotient_natAbs_lt h
  exact BitVec.toInt_ofInt_eq_self (by decide) (by omega) (by omega)

theorem divQuotient_neg_left {a : Word} (ha : a ≠ Config.minF) (b : Word) : divQuotient (-a) b = -divQuotient a b := by
  rw [divQuotient, s32_neg ha, Int.neg_mul]
  exact Int.neg_tdiv _ _

theorem divQuotient_neg_right (a : Word) {b : Word} (hb : b ≠ Config.minF) :
    divQuotient a (-b) = -divQuotient a b := by
  rw [divQuotient, s32_neg hb]
  exact Int.tdiv_neg _ _

/-! ### The command -/

/-- DIV under the guard: the extreme, with SAT and SAT_S (bits 0 and 8). -/
theorem exec_div_of_guard {s : State} (h : divGuard s.opa s.opb = true) :
    exec .div s = .next { s with result := saturatedQuotient s.opa s.opb,
                                 status := (s.status &&& 0xFFFFFFF0#32) ||| 0x00000101#32 } := by
  rw [exec_eq, outcome, divF_guard h, statusAfter, recordEvent_clear]
  rfl

/-- DIV without the guard: the quotient's word and no event. -/
theorem exec_div_of_no_guard {s : State} (h : divGuard s.opa s.opb = false) :
    exec .div s = .next { s with result := u32 (divQuotient s.opa s.opb),
                                 status := s.status &&& 0xFFFFFFF0#32 } := by
  rw [exec_eq, outcome, divF_no_guard h]
  rfl

/-- After DIV, SAT says whether the guard held. -/
theorem saturated_iff_guard {s t : State} (h : exec .div s = .next t) :
    t.status.getLsbD 0 = true ↔ divGuard s.opa s.opb = true := by
  rw [exec_eq] at h
  cases h
  refine (eventBit_statusAfter_iff _ s.status .saturated).trans ?_
  cases hg : divGuard s.opa s.opb with
  | true => simp [outcome, divF_guard hg]
  | false => simp [outcome, divF_no_guard hg]

/-- DIV that leaves no SAT left the quotient, unguarded. -/
theorem no_guard_of_not_saturated {s t : State} (h : exec .div s = .next t) (hsat : t.status.getLsbD 0 = false) :
    divGuard s.opa s.opb = false ∧ t.result = u32 (divQuotient s.opa s.opb) := by
  have hg : divGuard s.opa s.opb = false := by
    rw [← Bool.not_eq_true, ← saturated_iff_guard h, hsat]
    decide
  rw [exec_div_of_no_guard hg] at h
  cases h
  exact ⟨hg, rfl⟩

/-! ### The most negative word (R115) -/

theorem mag_minF : mag Config.minF = 2 ^ 31 := by decide

/-- The most negative dividend saturates against every divisor of magnitude up to 2^17. -/
theorem divGuard_minF_left {b : Word} (h : mag b ≤ 2 ^ 17) : divGuard Config.minF b = true := by
  rw [divGuard_iff, mag_minF]
  omega

/-- Against the most negative divisor no dividend saturates. -/
theorem divGuard_minF_right (a : Word) : divGuard a Config.minF = false := by
  have hmag := mag_le a
  rw [divGuard_eq_false_iff, mag_minF]
  omega

/-- Settles O16: a small divisor meets the guard and its sign picks the extreme; the divisor MINF never meets it. -/
theorem divMostNegative : Obligations.DivMostNegative := by
  refine ⟨fun s ha hpos hle => ?_, fun s ha hge hneg => ?_, fun s ha hb => ?_, fun s hb => ?_⟩
  · have hguard : divGuard s.opa s.opb = true := ha ▸ divGuard_minF_left (by rw [mag, s32]; omega)
    rw [exec_div_of_guard hguard, saturatedQuotient_eq, ha, msb_eq_false_of_pos hpos]
    rfl
  · have hguard : divGuard s.opa s.opb = true := ha ▸ divGuard_minF_left (by rw [mag, s32]; omega)
    rw [exec_div_of_guard hguard, saturatedQuotient_eq, ha, msb_eq_true_of_neg hneg]
    rfl
  · have hquotient : divQuotient 0x80000000#32 0x80000000#32 = 2 ^ 16 := by decide
    rw [exec_div_of_no_guard (hb ▸ divGuard_minF_right s.opa), ha, hb, hquotient]
    rfl
  · exact ⟨_, exec_div_of_no_guard (hb ▸ divGuard_minF_right s.opa), eventBits_statusAfter none s.status⟩

/-! ### SAT and the result without it -/

/-- Settles O17: SAT is the guard, and under it the result is an extreme. -/
theorem divGuardIsConservative : Obligations.DivGuardIsConservative := by
  intro s
  have hsat := saturated_iff_guard (exec_eq .div s)
  refine ⟨_, exec_eq .div s, hsat.trans (divGuard_iff s.opa s.opb),
    fun hb => hsat.trans (divGuard_iff_quotient s.opa hb), fun h => ?_⟩
  rw [outcome, divF_guard (hsat.mp h)]
  exact Consistency.saturatedQuotient_extreme s.opa s.opb

/-- Settles O18: without SAT the guard failed, so the quotient is small and its word keeps it. -/
theorem divNeverWraps : Obligations.DivNeverWraps := by
  intro s t h hsat
  obtain ⟨hguard, hresult⟩ := no_guard_of_not_saturated h hsat
  have hlow := BitVec.le_toInt s.opa
  have hhigh := BitVec.toInt_lt (x := s.opa)
  rw [hresult, toInt_u32_divQuotient hguard]
  exact ⟨rfl, divQuotient_natAbs_lt hguard, by omega, by omega⟩

/-- Settles O19: negating an operand keeps the magnitudes, hence the guard, and negates the truncated quotient. -/
theorem divSignSymmetric : Obligations.DivSignSymmetric := by
  intro s t ha hb h hsat
  obtain ⟨hguard, hresult⟩ := no_guard_of_not_saturated h hsat
  have hlt := (divGuard_eq_false_iff _ _).mp hguard
  rw [hresult, u32, ← BitVec.ofInt_neg]
  constructor
  · rw [← divQuotient_neg_left ha]
    exact exec_div_of_no_guard ((divGuard_eq_false_iff _ _).mpr (by rwa [mag_neg]))
  · rw [← divQuotient_neg_right s.opa hb]
    exact exec_div_of_no_guard ((divGuard_eq_false_iff _ _).mpr (by rwa [mag_neg]))

/-! ### The whole next state, and zero operands -/

/-- Settles O13: the guard's comparison, and DIV's next state on each side of it. -/
theorem divWritesQuotientOrSaturates : Obligations.DivWritesQuotientOrSaturates := by
  intro s
  split
  case isTrue hle => rw [exec_div_of_guard (decide_eq_true hle), saturatedQuotient_eq]
  case isFalse hgt => exact exec_div_of_no_guard (decide_eq_false hgt)

/-- Settles O14: the guard holds for a zero divisor, whose sign bit is 0. -/
theorem divByZeroSaturates : Obligations.DivByZeroSaturates := by
  intro s hb
  have hsign : s.opa.getLsbD 31 = s.opa.msb := (BitVec.msb_eq_getLsbD_last s.opa).symm
  rw [exec_div_of_guard (hb ▸ divGuard_zero s.opa), saturatedQuotient_eq, hb, hsign]
  cases s.opa.msb <;> rfl

/-- Settles O15: a zero dividend meets the guard against a zero divisor alone, and its quotient is 0. -/
theorem divOfZero : Obligations.DivOfZero := by
  refine ⟨fun s ha hb => ?_, fun s ha hb => ?_⟩
  · have hguard : divGuard s.opa s.opb = false := by
      have hpos : 0 < mag s.opb := Nat.pos_of_ne_zero (mt mag_eq_zero.mp hb)
      have hzero : mag s.opa = 0 := mag_eq_zero.mpr ha
      rw [divGuard_eq_false_iff, hzero]
      omega
    have hquotient : divQuotient 0#32 s.opb = 0 := Int.zero_tdiv _
    rw [exec_div_of_no_guard hguard, ha, hquotient]
    rfl
  · rw [divByZeroSaturates s hb, ha]
    rfl

end Sys2Proof.Divide
end

section
/-! PROOFS. RECIP (spec/42_reciprocal.md): the halving count of range reduction by its one property, the looked-up and
shifted table entry with its sign, and the contract of the tables the model names. -/
namespace Sys2Proof.Reciprocal
open Sys2Proof Sys2Proof.Machine

/-! ### Range reduction (R124) -/

/-- The halving count is the least that reaches the table's domain, because halving more never raises the magnitude. -/
theorem rangeReduce_count {m0 : Nat} (hle : m0 ≤ 2 ^ 31) :
    ∃ k, k ≤ 15 ∧ rangeReduce m0 = (m0 / 2 ^ k, k) ∧ ∀ j, j < k ↔ 65536 < m0 / 2 ^ j := by
  obtain ⟨k, hk, hreduce, hdomain, hleast⟩ := rangeReduce_spec hle
  refine ⟨k, hk, hreduce, fun j => ⟨hleast j, fun hj => ?_⟩⟩
  by_contra hkj
  have hmono : m0 / 2 ^ j ≤ m0 / 2 ^ k :=
    Nat.div_le_div_left (Nat.pow_le_pow_right (by decide) (Nat.le_of_not_lt hkj)) (Nat.two_pow_pos k)
  omega

/-- The last halving started above 65536, so it left at least 32768. -/
theorem le_last_halving {m0 j : Nat} (h : 65536 < m0 / 2 ^ j) : 32768 ≤ m0 / 2 ^ (j + 1) := by
  rw [Nat.pow_succ, ← Nat.div_div_eq_div_mul]
  omega

/-- Range reduction does nothing inside the table's domain. -/
theorem rangeReduce_of_le {m0 : Nat} (h : m0 ≤ 65536) : rangeReduce m0 = (m0, 0) :=
  if_neg (Nat.not_lt.mpr h)

/-- Settles O20: each clause is the halving count's property at one count: 0, the count itself, and 14. -/
theorem rangeReductionClosedForm : Obligations.RangeReductionClosedForm := by
  intro m0 _ hle
  obtain ⟨k, hk, hreduce, hcount⟩ := rangeReduce_count hle
  have hzero := hcount 0
  have hself := hcount k
  have hfourteen := hcount 14
  rw [Nat.pow_zero, Nat.div_one] at hzero
  refine ⟨k, hreduce, by omega, by omega, fun j => (hcount j).mp, fun habove => ?_, hk, by omega⟩
  obtain ⟨j, rfl⟩ := Nat.exists_eq_add_one.mpr (hzero.mpr habove)
  exact le_last_halving ((hcount j).mp (Nat.lt_succ_self j))

/-- A nonzero magnitude is reduced to an index of the table, never to entry 0 (R125). -/
theorem rangeReduce_index {m0 : Nat} (hpos : 1 ≤ m0) (hle : m0 ≤ 2 ^ 31) :
    1 ≤ (rangeReduce m0).1 ∧ (rangeReduce m0).1 ≤ 65536 := by
  obtain ⟨k, hreduce, hsmall, hdomain, -, hlarge, -⟩ := rangeReductionClosedForm m0 hpos hle
  rw [hreduce]
  refine ⟨?_, hdomain⟩
  by_cases h : m0 ≤ 65536
  · rw [hsmall h, Nat.pow_zero, Nat.div_one]
    exact hpos
  · exact Nat.le_trans (by decide) (hlarge (Nat.lt_of_not_le h))

/-! ### The looked-up and rescaled entry (R123, R125 to R128) -/

/-- Steps 2 to 4 of RECIPf: the entry of the reduced magnitude, shifted right by the halving count. -/
def rescaledEntry (table : Nat → Word) (m0 : Nat) : Word := table (rangeReduce m0).1 >>> (rangeReduce m0).2

theorem mag_pos {v : Word} (h : v ≠ 0#32) : 1 ≤ mag v := Nat.pos_of_ne_zero (mt mag_eq_zero.mp h)

/-- The contract keeps the rescaled entry of a nonzero word below 2^31. -/
theorem rescaledEntry_toNat_lt {table : Nat → Word} (htable : Config.RtabContract table) {v : Word} (h : v ≠ 0#32) :
    (rescaledEntry table (mag v)).toNat < 2 ^ 31 := by
  obtain ⟨hlow, hhigh⟩ := rangeReduce_index (mag_pos h) (mag_le v)
  have hentry := htable.bounded _ hlow hhigh
  have hshift := Nat.shiftRight_le (table (rangeReduce (mag v)).1).toNat (rangeReduce (mag v)).2
  rw [rescaledEntry, BitVec.toNat_ushiftRight]
  omega

/-- RECIP at zero: result 0, with DOM and DOM_S (bits 1 and 9). -/
theorem exec_recip_zero {s : State} (h : s.opb = 0#32) :
    exec .recip s = .next { s with result := 0x00000000#32,
                                   status := (s.status &&& 0xFFFFFFF0#32) ||| 0x00000202#32 } := by
  rw [exec_eq, outcome, h, recipF_zero, statusAfter, recordEvent_clear]
  rfl

/-- RECIP of any other word: the rescaled entry with the word's sign, and no event. -/
theorem exec_recip_nonzero {s : State} (h : s.opb ≠ 0#32) :
    exec .recip s = .next { s with result := restoreSign s.opb (rescaledEntry (rtabAt s) (mag s.opb)),
                                   status := s.status &&& 0xFFFFFFF0#32 } := by
  rw [exec_eq, outcome, recipF_nonzero _ h]
  rfl

theorem recip_result {s t : State} (h : s.opb ≠ 0#32) (hexec : exec .recip s = .next t) :
    t.result = restoreSign s.opb (rescaledEntry (rtabAt s) (mag s.opb)) := by
  rw [exec_recip_nonzero h] at hexec
  cases hexec
  rfl

/-- Settles O21: the halving count and the reduced magnitude are those of range reduction. -/
theorem recipLooksUpReducedMagnitude : Obligations.RecipLooksUpReducedMagnitude := by
  refine fun s => ⟨exec_recip_zero, fun h => ?_⟩
  obtain ⟨k, -, hreduce, hcount⟩ := rangeReduce_count (mag_le s.opb)
  obtain ⟨hlow, hhigh⟩ := rangeReduce_index (mag_pos h) (mag_le s.opb)
  rw [hreduce] at hlow hhigh
  refine ⟨k, _, rfl, hlow, hhigh, fun j => (hcount j).mp, ?_⟩
  rw [exec_recip_nonzero h, rescaledEntry, hreduce]
  rfl

/-! ### Monotone up to 1.0 (R129 (a)) -/

theorem toInt_of_toNat_lt {w : Word} (h : w.toNat < 2 ^ 31) : w.toInt = w.toNat :=
  BitVec.toInt_eq_toNat_of_lt (by omega)

/-- Up to 1.0 RECIP is the table's entry at the word itself. -/
theorem recip_result_of_le_one {s t : State} (hpos : 0 < s.opb.toNat) (hle : s.opb.toNat ≤ 65536)
    (hexec : exec .recip s = .next t) : t.result = rtabAt s s.opb.toNat := by
  have hvalue : s32 s.opb = s.opb.toNat := toInt_of_toNat_lt (by omega)
  have hmag : mag s.opb = s.opb.toNat := by rw [mag, hvalue, Int.natAbs_natCast]
  have hsign : signBit s.opb = false := by rw [signBit_eq, hvalue]; exact decide_eq_false (by omega)
  have hne : s.opb ≠ 0#32 := fun h => by rw [h] at hpos; exact absurd hpos (by decide)
  rw [recip_result hne hexec, hmag, rescaledEntry, rangeReduce_of_le hle, restoreSign, hsign]
  exact BitVec.ushiftRight_zero _

/-- Settles O22: both results are entries of one table, which the contract lets fall only. -/
theorem recipMonotoneBelowOne : Obligations.RecipMonotoneBelowOne := by
  intro s s' t t' hgood hrtab hpos hlt hle hexec hexec'
  have hfall := hgood.antitone _ _ hpos hlt hle
  have hbound := hgood.bounded _ hpos (hlt.le.trans hle)
  rw [recip_result_of_le_one hpos (by omega) hexec, recip_result_of_le_one (by omega) hle hexec', rtabAt_congr hrtab,
    toInt_of_toNat_lt (by omega), toInt_of_toNat_lt (by omega)]
  exact Int.ofNat_le.mpr hfall

/-! ### Sign symmetry (R127, R129 (b)) -/

theorem signBit_neg {v : Word} (hzero : v ≠ 0#32) (hmin : v ≠ Config.minF) : signBit (-v) = !signBit v := by
  have hpos := mag_pos hzero
  rw [mag] at hpos
  rw [signBit_eq, signBit_eq, Divide.s32_neg hmin, ← decide_not, decide_eq_decide]
  omega

theorem restoreSign_neg {v : Word} (hzero : v ≠ 0#32) (hmin : v ≠ Config.minF) (x : Word) :
    restoreSign (-v) x = -restoreSign v x := by
  rw [restoreSign, restoreSign, signBit_neg hzero hmin]
  cases signBit v with
  | true => exact (BitVec.neg_neg).symm
  | false => rfl

/-- Restoring a sign to a word below 2^31 never gives the one word whose negation is not exact. -/
theorem restoreSign_ne_minF (v : Word) {x : Word} (hx : x.toNat < 2 ^ 31) : restoreSign v x ≠ Config.minF := by
  unfold restoreSign
  split <;> bv_omega

/-- Settles O23: the two words have one magnitude, hence one rescaled entry, and opposite signs. -/
theorem recipSignSymmetric : Obligations.RecipSignSymmetric := by
  intro s t t' hzero hmin hexec hexec'
  have hresult := recip_result hzero hexec
  have hneg : t'.result = -t.result := by
    have hnegZero : -s.opb ≠ 0#32 := neg_ne_zero.mpr hzero
    rw [recip_result (s := { s with opb := -s.opb }) hnegZero hexec', hresult, Divide.mag_neg,
      restoreSign_neg hzero hmin]
    rfl
  refine ⟨hneg, fun hgood => ?_⟩
  rw [hneg]
  refine Divide.s32_neg ?_
  rw [hresult]
  exact restoreSign_ne_minF _ (rescaledEntry_toNat_lt hgood hzero)

/-! ### The tables the model names (R121, R122) -/

theorem rtabRef_toNat {i : Nat} (h : 1 ≤ i) : (Config.rtabRef i).toNat = min (2 ^ 32 / i) (2 ^ 31 - 1) := by
  rw [Config.rtabRef, if_neg (by omega), BitVec.toNat_ofNat, Nat.mod_eq_of_lt (by omega)]

theorem rtabRef_contract : Config.RtabContract Config.rtabRef where
  antitone i j hi hij _ := by
    have hfall : 2 ^ 32 / j ≤ 2 ^ 32 / i := Nat.div_le_div_left hij.le hi
    rw [rtabRef_toNat hi, rtabRef_toNat (by omega)]
    omega
  bounded i hi _ := by
    rw [rtabRef_toNat hi]
    exact Nat.min_le_right _ _

/-- Up to 65536 the quotient 2^32 / j is at least j, so one step down of the divisor leaves room for one more. -/
theorem quotient_lt_quotient {i j : Nat} (hi : 1 ≤ i) (hij : i < j) (hj : j ≤ 65536) : 2 ^ 32 / j < 2 ^ 32 / i := by
  have hsquare : j * j ≤ 2 ^ 16 * 2 ^ 16 := Nat.mul_le_mul hj hj
  have hquotient : j ≤ 2 ^ 32 / j := (Nat.le_div_iff_mul_le (by omega)).mpr hsquare
  have hproduct : 2 ^ 32 / j * j ≤ 2 ^ 32 := Nat.div_mul_le_self _ _
  rw [Nat.lt_iff_add_one_le, Nat.le_div_iff_mul_le hi]
  calc (2 ^ 32 / j + 1) * i
      ≤ (2 ^ 32 / j + 1) * (j - 1) := Nat.mul_le_mul_left _ (by omega)
    _ ≤ 2 ^ 32 / j * j := by
        obtain ⟨d, rfl⟩ := Nat.exists_eq_add_one.mpr (Nat.zero_lt_of_lt hij)
        rw [Nat.add_sub_cancel, Nat.add_one_mul, Nat.mul_add_one]
        omega
    _ ≤ 2 ^ 32 := hproduct

/-- Settles O24: the entries are clamped quotients, and only entries 1 and 2 meet the clamp. -/
theorem referenceTableMeetsContract : Obligations.ReferenceTableMeetsContract := by
  refine ⟨rtabRef_contract, rfl, fun i hi _ => rtabRef_toNat hi, fun i j hi hij hj => ?_⟩
  have hfall := quotient_lt_quotient (by omega) hij hj
  have hthird : 2 ^ 32 / j ≤ 2 ^ 32 / 3 := Nat.div_le_div_left (by omega) (by decide)
  rw [rtabRef_toNat (by omega), rtabRef_toNat (by omega)]
  omega

theorem and_maxF_of_le {w : Word} (h : w.toNat ≤ 2 ^ 31 - 1) : w &&& Config.maxF = w := by
  refine BitVec.eq_of_toNat_eq ?_
  rw [BitVec.toNat_and]
  exact (Nat.and_two_pow_sub_one_eq_mod _ 31).trans (Nat.mod_eq_of_lt (by omega))

/-- Settles O25: by induction on the index, a table of the contract is neither masked nor held down anywhere. -/
theorem parameterCoversEveryContractTable : Obligations.ParameterCoversEveryContractTable := by
  intro table htable i hi
  induction i, hi using Nat.le_induction with
  | base => exact fun hle => and_maxF_of_le (htable.bounded 1 le_rfl hle)
  | succ n hn ih =>
    intro hle
    obtain ⟨k, rfl⟩ := Nat.exists_eq_add_one.mpr hn
    rw [Config.boundedTable, ih (by omega), and_maxF_of_le (htable.bounded _ (by omega) hle)]
    exact if_pos (htable.antitone _ _ hn (Nat.lt_succ_self _) hle)

/-- Settles O49: at reset no entry is listed, so the table is the parameter. -/
theorem resetTableMeetsContract : Obligations.ResetTableMeetsContract := Config.rtab_contract

end Sys2Proof.Reciprocal
end

section
/-! PROOFS. ADIV (spec/43_approx_divide.md): at a zero divisor it leaves what RECIP leaves there, and at any other it is
MULf of the dividend and RECIP's result, so its next state is read off those of RECIP and of MUL. -/
namespace Sys2Proof.ApproxDivide
open Sys2Proof Sys2Proof.Machine Sys2Proof.Multiply Sys2Proof.Reciprocal

/-- At a zero divisor ADIV raises RECIP's domain error and leaves its result 0 (R142). -/
theorem exec_adiv_of_zero {s : State} (h : s.opb = 0#32) : exec .adiv s = exec .recip s := by
  rw [exec_eq, exec_eq, outcome, outcome, h, adivF_zero, recipF_zero]

/-- At any other divisor ADIV completes with MULf of the dividend and the word RECIP leaves in RESULT (R141). -/
theorem exec_adiv_of_recip {s r : State} (h : s.opb ≠ 0#32) (hrecip : exec .recip s = .next r) :
    exec .adiv s = .next { s with
      result := u32 (mulQuotient s.opa r.result)
      status := statusAfter (mulF s.opa r.result).2 s.status } := by
  have houtcome : outcome .adiv (rtabAt s) s.opa s.opb = mulF s.opa (outcome .recip (rtabAt s) s.opa s.opb).1 :=
    adivF_nonzero _ _ h
  rw [exec_eq] at hrecip
  cases hrecip
  rw [exec_eq, houtcome]
  rfl

/-- Settles O26: the zero divisor is RECIP's domain error; otherwise RECIP completes, the scaled product with its result
is the floor, and the range test is the model's. -/
theorem adivMultipliesByReciprocal : Obligations.AdivMultipliesByReciprocal := by
  intro s
  refine ⟨fun hzero => ?_, fun hne => ?_⟩
  · exact (exec_adiv_of_zero hzero).trans (exec_recip_zero hzero)
  · obtain ⟨r, hrecip⟩ : ∃ r, exec .recip s = .next r := ⟨_, exec_recip_nonzero hne⟩
    refine ⟨r, hrecip, ?_⟩
    simp only [← mulQuotient_eq_fdiv, ← outOfRange_iff, ← statusAfter_mulF]
    exact exec_adiv_of_recip hne hrecip

end Sys2Proof.ApproxDivide
end

section
/-! PROOFS. MOD (spec/44_modulo.md): the Euclidean residue as an integer, the masking path and the general path as two
ways to its word, and MOD's next state as that word with no event. -/
namespace Sys2Proof.Modulo
open Sys2Proof Sys2Proof.Machine

/-! ### The residue (R157) -/

/-- The Euclidean residue of the dividend modulo the magnitude of the modulus, before it is narrowed to a word. -/
def residue (a b : Word) : Int := s32 a % mag b

theorem residue_nonneg (a : Word) {b : Word} (hb : b ≠ 0#32) : 0 ≤ residue a b :=
  Int.emod_nonneg _ (Int.natCast_ne_zero.mpr (Nat.ne_of_gt (Reciprocal.mag_pos hb)))

theorem residue_lt_mag (a : Word) {b : Word} (hb : b ≠ 0#32) : residue a b < mag b :=
  Int.emod_lt_of_pos _ (Int.natCast_pos.mpr (Reciprocal.mag_pos hb))

theorem residue_zero_left (b : Word) : residue 0#32 b = 0 := Int.zero_emod _

theorem residue_neg_right (a b : Word) : residue a (-b) = residue a b := by
  rw [residue, Divide.mag_neg, residue]

/-- The residue is below 2^31, so narrowing loses nothing. -/
theorem toInt_u32_residue (a : Word) {b : Word} (hb : b ≠ 0#32) : (u32 (residue a b)).toInt = residue a b := by
  have hnonneg := residue_nonneg a hb
  have hlt := residue_lt_mag a hb
  have hmag := mag_le b
  exact BitVec.toInt_ofInt_eq_self (by decide) (by omega) (by omega)

/-! ### The general path (R155) -/

/-- The truncated remainder of a negative dividend that the modulus does not divide lies one magnitude below the residue,
and in every other case it is the residue; the correction tells the two apart by the sign. -/
theorem generalMod_eq_residue (a : Word) {b : Word} (hb : b ≠ 0#32) : generalMod a b = u32 (residue a b) := by
  have hnonneg := residue_nonneg a hb
  have hlt := residue_lt_mag a hb
  have hmod : s32 a % s32 b = residue a b := by rw [residue, mag, Int.natCast_natAbs, Int.emod_abs]
  have htrem : trem (s32 a) (s32 b) = residue a b ∨ trem (s32 a) (s32 b) = residue a b - mag b := by
    rw [trem_eq, Int.tmod_eq_emod, hmod]
    split
    case isTrue => exact .inl (Int.sub_zero _)
    case isFalse => exact .inr rfl
  obtain h | h := htrem
  · rw [generalMod, h, if_neg (by omega)]
  · rw [generalMod, h, if_pos (by omega), Int.sub_add_cancel]

/-! ### Powers of two and the masking path (R152, R156) -/

theorem toNat_one_shiftLeft {k : Nat} (hk : k < 32) : (1#32 <<< k).toNat = 2 ^ k := by
  rw [← BitVec.twoPow_eq, BitVec.toNat_twoPow_of_lt hk]

theorem one_shiftLeft_ne_zero {k : Nat} (hk : k < 32) : 1#32 <<< k ≠ 0#32 := by
  have hpos : 0 < 2 ^ k := Nat.two_pow_pos k
  rw [← toNat_one_shiftLeft hk] at hpos
  bv_omega

/-- The magnitude of a power of two is that power; for 0x80000000 it is the magnitude of a negative word. -/
theorem mag_one_shiftLeft {k : Nat} (hk : k < 32) : mag (1#32 <<< k) = 2 ^ k := by
  have hle : 2 ^ k ≤ 2 ^ 31 := Nat.pow_le_pow_right (by decide) (Nat.le_of_lt_succ hk)
  rw [mag, s32, BitVec.toInt_eq_toNat_cond, toNat_one_shiftLeft hk]
  split <;> omega

theorem modMask_one_shiftLeft_toNat {k : Nat} (hk : k < 32) : (modMask (1#32 <<< k)).toNat = 2 ^ k - 1 := by
  have hle : 1#32 ≤ 1#32 <<< k := BitVec.le_def.mpr ((toNat_one_shiftLeft hk).symm ▸ Nat.one_le_two_pow)
  rw [modMask_eq, BitVec.toNat_sub_of_le hle, toNat_one_shiftLeft hk]
  rfl

/-- Masking keeps the low k bits of the word, and a word is congruent to its signed value modulo 2^32, hence modulo 2^k. -/
theorem and_modMask_eq_residue (a : Word) {k : Nat} (hk : k < 32) :
    a &&& modMask (1#32 <<< k) = u32 (residue a (1#32 <<< k)) := by
  have hdvd : (2 ^ k : Int) ∣ 2 ^ 32 := pow_dvd_pow 2 hk.le
  have hsigned : s32 a % 2 ^ k = a.toNat % 2 ^ k := by
    rw [← Int.emod_emod_of_dvd (s32 a) hdvd, ← Int.emod_emod_of_dvd (a.toNat : Int) hdvd, s32,
      BitVec.toInt_eq_toNat_bmod]
    exact congrArg (· % 2 ^ k) Int.bmod_emod
  have hresidue : residue a (1#32 <<< k) = (a.toNat % 2 ^ k : Nat) := by
    rw [residue, mag_one_shiftLeft hk]
    exact_mod_cast hsigned
  refine BitVec.eq_of_toNat_eq ?_
  rw [BitVec.toNat_and, modMask_one_shiftLeft_toNat hk, Nat.and_two_pow_sub_one_eq_mod, hresidue, u32,
    BitVec.ofInt_natCast, BitVec.toNat_ofNat, Nat.mod_eq_of_lt (lt_of_le_of_lt (Nat.mod_le _ _) a.isLt)]

/-- The fast path's test is the library's test for a power of two, on the word read as unsigned. -/
theorem fastPath_iff_isPowerOfTwo {b : Word} (hb : b ≠ 0#32) : fastPath b = true ↔ b.toNat.isPowerOfTwo := by
  have hpos : b.toNat ≠ 0 := by bv_omega
  have hpred : (b - 1#32).toNat = b.toNat - 1 := by bv_omega
  rw [fastPath_iff_and_pred, ← BitVec.toNat_inj, BitVec.toNat_and, hpred]
  exact Nat.and_sub_one_eq_zero_iff_isPowerOfTwo hpos

theorem fastPath_iff_exists_shiftLeft {b : Word} (hb : b ≠ 0#32) :
    fastPath b = true ↔ ∃ k, k < 32 ∧ b = 1#32 <<< k := by
  rw [fastPath_iff_isPowerOfTwo hb]
  constructor
  · rintro ⟨k, hpow⟩
    have hk : k < 32 := (Nat.pow_lt_pow_iff_right (by decide)).mp (hpow ▸ b.isLt)
    exact ⟨k, hk, BitVec.eq_of_toNat_eq (hpow.trans (toNat_one_shiftLeft hk).symm)⟩
  · rintro ⟨k, hk, rfl⟩
    exact ⟨k, toNat_one_shiftLeft hk⟩

/-! ### The command -/

/-- MODf of a nonzero modulus: the short-circuit, the masking path and the general path all give the residue's word. -/
theorem modF_nonzero (a : Word) {b : Word} (hb : b ≠ 0#32) : modF a b = (u32 (residue a b), none) := by
  rw [modF, if_neg hb]
  split
  case isTrue hzero =>
    rw [hzero, residue_zero_left]
    rfl
  case isFalse =>
    split
    case isTrue hfast =>
      obtain ⟨k, hk, rfl⟩ := (fastPath_iff_exists_shiftLeft hb).mp hfast
      rw [and_modMask_eq_residue a hk]
    case isFalse => rw [generalMod_eq_residue a hb]

/-- MOD by zero: RESULT 0, with DOM and DOM_S (bits 1 and 9). -/
theorem exec_mod_zero {s : State} (h : s.opb = 0#32) :
    exec .mod s = .next { s with result := 0x00000000#32,
                                 status := (s.status &&& 0xFFFFFFF0#32) ||| 0x00000202#32 } := by
  rw [exec_eq, outcome, h, modF_zero, statusAfter, recordEvent_clear]
  rfl

/-- MOD by any other word: the residue's word and no event. -/
theorem exec_mod_nonzero {s : State} (h : s.opb ≠ 0#32) :
    exec .mod s = .next { s with result := u32 (residue s.opa s.opb), status := s.status &&& 0xFFFFFFF0#32 } := by
  rw [exec_eq, outcome, modF_nonzero s.opa h]
  rfl

/-- Settles O27: MOD leaves the residue's word, both paths compute it, and it depends on the modulus by its magnitude. -/
theorem modIsEuclideanResidue : Obligations.ModIsEuclideanResidue := by
  refine ⟨fun s hb => exec_mod_nonzero hb, fun s t hb h => ?_, fun a k hk => ?_, fun s t hb _ h => ?_⟩
  · rw [exec_mod_nonzero hb] at h
    cases h
    have htop := Consistency.modF_top s.opa s.opb
    rw [modF_nonzero s.opa hb] at htop
    rw [toInt_u32_residue s.opa hb]
    exact ⟨residue_nonneg s.opa hb, residue_lt_mag s.opa hb, Int.dvd_self_sub_emod, htop⟩
  · rw [and_modMask_eq_residue a hk, generalMod_eq_residue a (one_shiftLeft_ne_zero hk)]
  · have hneg : -s.opb ≠ 0#32 := neg_ne_zero.mpr hb
    rw [exec_mod_nonzero hb] at h
    cases h
    rw [exec_mod_nonzero (s := { s with opb := -s.opb }) hneg, residue_neg_right]

/-- Settles O29: the test is that for a power of two, and masking by one gives the residue's word. -/
theorem modFastPathIsPowersOfTwo : Obligations.ModFastPathIsPowersOfTwo := by
  refine ⟨fun b hb => fastPath_iff_exists_shiftLeft hb, fun s k hk hb => ?_⟩
  have hne : s.opb ≠ 0#32 := hb ▸ one_shiftLeft_ne_zero hk
  have hmask : s.opa &&& (s.opb - 1#32) = u32 (residue s.opa s.opb) := by
    rw [← modMask_eq, hb, and_modMask_eq_residue s.opa hk]
  rw [exec_mod_nonzero hne, hmask]

/-- Settles O28: the zero modulus is decided before the zero dividend, whose residue is 0. -/
theorem modZeroOperands : Obligations.ModZeroOperands := by
  refine ⟨fun s => exec_mod_zero, fun s ha hb => ?_⟩
  rw [exec_mod_nonzero hb, ha, residue_zero_left]
  rfl

end Sys2Proof.Modulo
end

section
/-! PROOFS. The events (spec/60_exceptions.md): what raising one changes, which of them each command can leave, what
clears a sticky bit, and how a handler puts the interrupted command's outcome back. -/
namespace Sys2Proof.Exceptions
open Sys2Proof Sys2Proof.Machine Sys2Proof.Registers Sys2Proof.Consistency Sys2Proof.Bus

/-! ### Raising an event (R163, R166) -/

/-- The sticky bits after raise: those set before, and the event's. -/
theorem getLsbD_raise_sticky (e : Event) (s : State) {i : Nat} (hi : i < 4) :
    (raise e s).status.getLsbD (8 + i) = (s.status.getLsbD (8 + i) || decide (i = e.code)) := by
  have hcode := e.code_lt
  have hevent : 8 + i ≠ e.code := by omega
  rw [raise_status, getLsbD_recordEvent, decide_eq_false hevent, Bool.or_false]
  simp only [Nat.add_left_cancel_iff]

/-- Raising an event asserts irq exactly when the event is enabled, beside what asserted it before (R31). -/
theorem irq_raise_iff (e : Event) (s : State) :
    (raise e s).irq = true ↔ s.irq = true ∨ s.ctrl.getLsbD e.code = true := by
  rw [irqIsStickyAndEnabled, irqIsStickyAndEnabled, raise_ctrl]
  constructor
  · rintro ⟨i, hi, hsticky, henabled⟩
    rw [getLsbD_raise_sticky e s hi, Bool.or_eq_true, decide_eq_true_eq] at hsticky
    obtain hold | rfl := hsticky
    · exact .inl ⟨i, hi, hold, henabled⟩
    · exact .inr henabled
  · rintro (⟨i, hi, hsticky, henabled⟩ | henabled)
    · exact ⟨i, hi, by rw [getLsbD_raise_sticky e s hi, hsticky, Bool.true_or], henabled⟩
    · exact ⟨e.code, e.code_lt, by rw [getLsbD_raise_sticky e s e.code_lt, decide_eq_true rfl, Bool.or_true], henabled⟩

/-- Settles O35: bit j of the new STATUS is the old one unless j is one of the event's two. -/
theorem raiseRecordsItsTwoBits : Obligations.RaiseRecordsItsTwoBits := by
  intro e s
  refine ⟨?_, ?_, fun j hevent hsticky => ?_, rfl, irq_raise_iff e s⟩
  · simp [getLsbD_recordEvent]
  · simp [getLsbD_recordEvent]
  · simp [getLsbD_recordEvent, hevent, hsticky]

/-- Settles O4: the write stores the word, which decodes to no command, and IllegalCommand is bits 2 and 10. -/
theorem illegalWordRecordsIllegalCommand : Obligations.IllegalWordRecordsIllegalCommand := by
  intro s w rest hr hi hw
  obtain ⟨r, hdec⟩ := decode_error_of_gt hw
  have hstep := (step_write hr (by decide) (by decide) hi).trans (execute_of_error hdec _)
  rw [hstep, illegalCommand_eq, statusAfter, recordEvent_clear]
  rfl

/-! ### The events of each command (R165, R167) -/

/-- The events a command can raise. -/
def possibleEvents : Instr → List Event
  | .mul => [.mulOverflow]
  | .div => [.saturated]
  | .recip => [.domainError]
  | .adiv => [.domainError, .mulOverflow]
  | .mod => [.domainError]

/-- An event that fits a command's word is one of that command's. -/
theorem mem_possibleEvents_of_fits {i : Instr} {r : Word} {ev : Event} (h : EventFits (encode i) r (some ev)) :
    ev ∈ possibleEvents i := by
  cases h with
  | saturated hc => revert hc; cases i <;> decide
  | domainError hc => revert hc; cases i <;> decide
  | illegalCommand hc => exact absurd (encode_toNat_le i) (Nat.not_le.mpr hc)
  | mulOverflow hc => revert hc; cases i <;> decide

/-- A command leaves in STATUS[3:0] the bit of its outcome's event alone. -/
theorem exec_eventBits {i : Instr} {s t : State} (h : exec i s = .next t) :
    t.eventBits = (outcome i (rtabAt s) s.opa s.opb).2.elim 0#4 (fun ev => 1#4 <<< ev.code) := by
  rw [exec_eq] at h
  cases h
  exact eventBits_statusAfter _ _

/-- A command leaves no per-command bit, or that of one of its events. -/
theorem exec_eventBits_cases {i : Instr} {s t : State} (h : exec i s = .next t) :
    t.eventBits = 0b0000#4 ∨ ∃ ev ∈ possibleEvents i, t.eventBits = 1#4 <<< ev.code := by
  have hbits := exec_eventBits h
  have hfits := outcome_fits i (rtabAt s) s.opa s.opb
  cases he : (outcome i (rtabAt s) s.opa s.opb).2 with
  | none => rw [he] at hbits; exact .inl hbits
  | some ev => rw [he] at hbits hfits; exact .inr ⟨ev, mem_possibleEvents_of_fits hfits, hbits⟩

/-- Settles O7: each command's list of events, with the bit of each. -/
theorem eventsOfEachCommand : Obligations.EventsOfEachCommand := by
  intro i s t h
  obtain hnone | ⟨ev, hev, hbits⟩ := exec_eventBits_cases h
  · cases i <;> exact .inl hnone
  · cases i with
    | adiv =>
      obtain rfl | rfl := List.mem_pair.mp hev
      · exact .inr (.inl hbits)
      · exact .inr (.inr hbits)
    | _ =>
      obtain rfl := List.mem_singleton.mp hev
      exact .inr hbits

/-! ### Clearing a sticky bit (R168) -/

/-- A write that clears a sticky bit is one of a 1 to it at STATUS: Execute clears none, and no other write reaches
STATUS. -/
theorem busWrite_clears_sticky {off i : Nat} {v : Word} {s t : State} (h : busWrite off v s = .next t) (hi : i < 4)
    (hs : s.status.getLsbD (8 + i) = true) (ht : t.status.getLsbD (8 + i) = false) :
    off = 0x10 ∧ v.getLsbD (8 + i) = true := by
  have hne : t.status ≠ s.status := fun heq => by rw [heq, hs] at ht; cases ht
  obtain ⟨-, -, -, -, hstatus, -⟩ := busWrite_changes h
  obtain rfl | rfl := hstatus hne
  · obtain ⟨r, e, he⟩ := execute_status v (s.setCmd v)
    obtain rfl := Host.Outcome.next.inj (he.symm.trans h)
    rw [getLsbD_statusAfter_sticky e _ hi, State.setCmd_status, hs] at ht
    cases ht
  · obtain rfl := Host.Outcome.next.inj h
    have hsticky : 8 ≤ 8 + i ∧ 8 + i < 12 := by omega
    rw [State.setStatus_status, getLsbD_clearSticky, hs, decide_eq_true hsticky] at ht
    exact ⟨rfl, by simpa using ht⟩

/-- Settles O34: a completed step off the reset line changes the port alone or performs a write. -/
theorem stickyClearedOnlyByWriteOrReset : Obligations.StickyClearedOnlyByWriteOrReset := by
  intro s t i hi h hs ht
  by_cases hline : ∃ b rest, s.inputs = .resetLine b :: rest
  · exact .inr hline
  · obtain ⟨r, l, rfl⟩ | ⟨off, v, rest, hin, -, -, -, hw⟩ := step_next_cases h fun b rest hin => hline ⟨b, rest, hin⟩
    · exact absurd (hs.symm.trans ht) (by decide)
    · obtain ⟨rfl, hv⟩ := busWrite_clears_sticky hw hi hs ht
      exact .inl ⟨v, rest, hin, hv⟩

/-! ### Re-issuing a command (R172) -/

theorem step_write_opa {s : State} {v : Word} {rest : List Input} (hr : s.inReset = false)
    (hi : s.inputs = .access ⟨.write v, 0x00, 4⟩ :: rest) :
    step s = .next { s with opa := v, inputs := rest, response := some .written } :=
  step_write hr (by decide) (by decide) hi

theorem step_write_opb {s : State} {v : Word} {rest : List Input} (hr : s.inReset = false)
    (hi : s.inputs = .access ⟨.write v, 0x04, 4⟩ :: rest) :
    step s = .next { s with opb := v, inputs := rest, response := some .written } :=
  step_write hr (by decide) (by decide) hi

theorem step_write_command {i : Instr} {s : State} {rest : List Input} (hr : s.inReset = false)
    (hi : s.inputs = .access ⟨.write (encode i), 0x08, 4⟩ :: rest) :
    step s = exec i { s with cmd := encode i, inputs := rest, response := some .written } :=
  stepRunsDecodedCommand s _ i rest hr hi (decode_encode i)

theorem run_succ_of_step {k : Nat} {s s' : State} (h : step s = .next s') :
    Host.Core.run core (k + 1) s = Host.Core.run core k s' := by
  have hcore : core.step s = .next s' := h
  simp only [Host.Core.run, hcore]

/-- Writing both operands and a command's word takes three steps, of which the last is the command on those operands. -/
theorem run_operands_and_command {i : Instr} {s t : State} {a b : Word} {rest : List Input} (hr : s.inReset = false)
    (hi : s.inputs = .access ⟨.write a, 0x00, 4⟩ :: .access ⟨.write b, 0x04, 4⟩ ::
      .access ⟨.write (encode i), 0x08, 4⟩ :: rest)
    (h : exec i { s with opa := a, opb := b, cmd := encode i, inputs := rest, response := some .written } = .next t) :
    Host.Core.run core 3 s = .next t := by
  refine Eq.trans (run_succ_of_step (step_write_opa hr hi)) ?_
  refine Eq.trans (run_succ_of_step (step_write_opb hr rfl)) ?_
  exact run_succ_of_step (Eq.trans (step_write_command hr rfl) h)

/-- Commands on the same operands and table leave the same RESULT and the same per-command bits. -/
theorem exec_outcome_congr {i : Instr} {s s' t t' : State} (h : exec i s = .next t) (h' : exec i s' = .next t')
    (hopa : s'.opa = s.opa) (hopb : s'.opb = s.opb) (hrtab : s'.rtab = s.rtab) :
    t'.result = t.result ∧ t'.eventBits = t.eventBits := by
  have hsame : outcome i (rtabAt s') s'.opa s'.opb = outcome i (rtabAt s) s.opa s.opb := by
    rw [rtabAt_congr hrtab, hopa, hopb]
  refine ⟨?_, by rw [exec_eventBits h, exec_eventBits h', hsame]⟩
  rw [exec_eq] at h h'
  cases h
  cases h'
  exact congrArg Prod.fst hsame

/-- Settles O43: a command's outcome is a function of the operands, which the handler wrote back, and of RTAB, which
does not change; the sticky bits are CommandFrame's. -/
theorem reissuedCommandRestoresOutcome : Obligations.ReissuedCommandRestoresOutcome := by
  intro i s t h rest ht hrtab hr hi
  obtain ⟨hopa, hopb, -, -, htable, -⟩ := commandFrame i s t ht
  obtain ⟨u, hu⟩ : ∃ u, exec i { h with opa := t.opa, opb := t.opb, cmd := encode i, inputs := rest,
                                        response := some .written } = .next u := ⟨_, exec_eq i _⟩
  obtain ⟨huopa, huopb, hucmd, huctrl, -, -, -, -, -, husticky⟩ := commandFrame i _ u hu
  obtain ⟨huresult, huevent⟩ := exec_outcome_congr ht hu hopa hopb (hrtab.trans htable)
  refine ⟨u, run_operands_and_command hr hi hu, huopa, huopb, hucmd, huresult, huevent, huctrl, ?_⟩
  rw [husticky, huevent]
  rfl

end Sys2Proof.Exceptions
end

section
/-! PROOFS. Reset and hazards (spec/70_reset_and_hazards.md): what the reset line leaves, and that a command's outcome
depends on the operands and on the table's indexed entries alone. -/
namespace Sys2Proof.Reset
open Sys2Proof Sys2Proof.Machine Sys2Proof.Registers Sys2Proof.Reciprocal Sys2Proof.Exceptions

/-! ### The reset line (R190 to R192) -/

/-- After its step the reset line has the level it was driven to, also where it had it before. -/
theorem driveReset_inReset (b : Bool) (s : State) : (driveReset b s).inReset = b := by
  unfold driveReset
  split
  case isTrue hlevel => exact hlevel.symm
  case isFalse => rfl

/-- Releasing an asserted reset leaves the reset values, RTAB and what waits at the port. -/
theorem driveReset_release {s : State} (h : s.inReset = true) :
    driveReset false s = { State.reset with rtab := s.rtab, inputs := s.inputs } := by
  have hchange : ¬ false = s.inReset := by simp [h]
  exact if_neg hchange

/-- Settles O47: a step on the reset line is driveReset of its level, on the state with that input taken. -/
theorem resetLeavesTableAndClearsRegisters : Obligations.ResetLeavesTableAndClearsRegisters := by
  refine ⟨fun s rest hr hi => ?_, fun s b rest hi => ?_⟩
  · have hreset : (s.setInputs rest).inReset = true := hr
    rw [step_resetLine hi, driveReset_release hreset]
    rfl
  · exact ⟨_, step_resetLine hi, driveReset_rtab b _, driveReset_inReset b _⟩

/-! ### What a command's outcome depends on (R125, R169, R200) -/

/-- RECIPf reads one entry at most, at the reduced magnitude, which is an index from 1 to 65536. -/
theorem recipF_congr {table table' : Nat → Word} (h : ∀ j, 1 ≤ j → j ≤ 65536 → table' j = table j) (v : Word) :
    recipF table' v = recipF table v := by
  by_cases hv : v = 0#32
  · rw [hv, recipF_zero, recipF_zero]
  · obtain ⟨hlow, hhigh⟩ := rangeReduce_index (mag_pos hv) (mag_le v)
    rw [recipF_nonzero _ hv, recipF_nonzero _ hv, h _ hlow hhigh]

/-- Only RECIP and ADIV read the table, and both through RECIPf. -/
theorem outcome_congr {table table' : Nat → Word} (h : ∀ j, 1 ≤ j → j ≤ 65536 → table' j = table j) (i : Instr)
    (a b : Word) : outcome i table' a b = outcome i table a b := by
  cases i with
  | recip => exact recipF_congr h b
  | adiv => simp only [outcome, adivF, recipF_congr h b]
  | mul | div | mod => rfl

theorem exec_result {i : Instr} {s t : State} (h : exec i s = .next t) :
    t.result = (outcome i (rtabAt s) s.opa s.opb).1 := by
  rw [exec_eq] at h
  cases h
  rfl

/-- Settles O6: RESULT and STATUS[3:0] are those of the outcome, which the two states share. -/
theorem outcomeDependsOnOperandsAlone : Obligations.OutcomeDependsOnOperandsAlone := by
  intro i s s' t t' hopa hopb htable h h'
  have hsame : outcome i (rtabAt s') s'.opa s'.opb = outcome i (rtabAt s) s.opa s.opb := by
    rw [hopa, hopb, outcome_congr htable]
  exact ⟨by rw [exec_result h', exec_result h, hsame], by rw [exec_eventBits h', exec_eventBits h, hsame]⟩

end Sys2Proof.Reset
end
